-- ==== Sys2Proof/Word.lean ====
section
/-! DEFINITION. The types of the values the hardware handles: bytes, words, fields and text. -/

namespace Sys2Proof

/-- One bit of a port or field; 0 or 1 and nothing else (10_state.md R15). -/
abbrev Bit := BitVec 1

/-- One byte of the input, or one character code on a port. -/
abbrev Byte := BitVec 8

/-- The Raw Word, an unsigned 16-bit value (00_scope.md R8, R13). -/
abbrev Word := BitVec 16

/-- The 6-bit operation selector (00_scope.md R8). -/
abbrev Opcode := BitVec 6

/-- A 3-bit register selector, `reg` or `r_m` (00_scope.md R8). -/
abbrev Sel := BitVec 3

/-- A register identity: the 4-bit composite index `{sel, w}` (00_scope.md R8, R13). -/
abbrev RegId := BitVec 4

/-- Text as the spec writes it, a sequence of characters joined by `++` (00_scope.md R11). -/
abbrev Text := List Char

end Sys2Proof
end

