-- ==== Sys2Proof/Config.lean ====
section
/-! DEFINITION. The fixed parameters of the hardware (00_scope.md R8) and its open parameters (00_scope.md R9; 70_reset_and_hazards.md R175). -/

namespace Sys2Proof

/-- What the host does with a word whose result is `UnknownOpcode` (00_scope.md R9; 92_eei_decisions.md D6). -/
inductive ErrorPolicy where
  /-- Record a warning and go on. -/
  | skip
  /-- Record the error and stop the run. -/
  | abort
  deriving DecidableEq, Repr, Inhabited

/-- What the host does with a final odd byte (00_scope.md R9; 92_eei_decisions.md D7). -/
inductive TrailingPolicy where
  /-- Record a warning; the run is done. -/
  | warn
  /-- Record an error; the run is rejected. -/
  | reject
  deriving DecidableEq, Repr, Inhabited

namespace Config

/-- INSTR_BYTES: every instruction is exactly 2 bytes (00_scope.md R8). -/
abbrev instrBytes : Nat := 2

/-- OPCODE_MOV: 34 = 0b100010 (00_scope.md R8). -/
abbrev opcodeMov : Opcode := 34#6

/-- The value ERROR_POLICY has in `State.reset`. DESIGN CHOICE, safe (log entry 3): the spec gives no default, so it is a constant without a value. -/
opaque errorPolicy : ErrorPolicy

/-- The value TRAILING_POLICY has in `State.reset`. DESIGN CHOICE, safe (log entry 3): the spec gives no default, so it is a constant without a value. -/
opaque trailingPolicy : TrailingPolicy

/-- `T_PD`, the core's propagation delay: an open quantity that no rule reads (70_reset_and_hazards.md R175), so nothing in the model reads it (log entry 12). -/
opaque propagationDelay : Nat

end Config

end Sys2Proof
end

