-- ==== Sys2Proof/Syntax.lean ====
section
/-! DEFINITION. The decoded record of a word, the one instruction of the opcode table, and the reasons a decoder rejects bytes. -/

namespace Sys2Proof

/-- The six fields `instruction_decoder` drives from a word (10_state.md R16; 40_bitfield_decoder.md R71). -/
structure Record where
  opcode    : Opcode
  direction : Bit
  width     : Bit
  reg       : Sel
  r_m       : Sel
  mod       : BitVec 2
  deriving DecidableEq, Repr

/-- The instructions: one constructor for the one row of the opcode table (30_encoding.md R55). -/
inductive Instr where
  /-- `mov`, pattern `mmrrrsss100010dw` (41_register_name_lut.md R122); the operands stand in the pattern's order, the opcode is implied. -/
  | mov (mod : BitVec 2) (reg r_m : Sel) (d w : Bit)
  deriving DecidableEq, Repr

/-- Why a decoder gives no instruction. -/
inductive Reject where
  /-- The word's opcode is not 34 (30_encoding.md R56); carries the 6-bit opcode. -/
  | unknownOpcode (v : Opcode)
  /-- One byte is left, which belongs to no word (20_memory.md R32). -/
  | trailingByte (b : Byte)
  /-- No byte is left. -/
  | noBytes
  deriving DecidableEq, Repr

end Sys2Proof
end

