-- ==== Sys2Proof/WellFormed.lean ====
section
/-! DEFINITION. Which records are records of an instruction, and which instructions are well-formed. -/

namespace Sys2Proof

/-- A record names an instruction exactly when its opcode is the one the opcode map lists (30_encoding.md R55, R56); every value of the other fields is legal (30_encoding.md R57). -/
def Record.wellFormed (f : Record) : Bool := f.opcode == Config.opcodeMov

/-- The record an instruction stands for; `mov` implies opcode 34 (41_register_name_lut.md R122). -/
def Instr.record : Instr → Record
  | .mov mod reg r_m d w => { opcode := Config.opcodeMov, direction := d, width := w, reg := reg, r_m := r_m, mod := mod }

/-- An instruction is well-formed when its record is. The operands' types are as wide as their fields (40_bitfield_decoder.md R73), so this refuses no term of `Instr`. -/
def Instr.wellFormed (i : Instr) : Bool := i.record.wellFormed

end Sys2Proof
end

