-- ==== Sys2Proof/Decode.lean ====
section
/-! DEFINITION. From bytes to a word, from a word to its fields, from the fields to an instruction; and the encoder, written from the encoding tables of the spec. -/

namespace Sys2Proof

/-- Little-endian word assembly by explicit shifts: the byte at the lower offset is the low-order byte (20_memory.md R33, R34). -/
def wordOfBytes (lo hi : Byte) : Word := lo.setWidth 16 ||| (hi.setWidth 16 <<< 8)

/-- The byte of a word that stands first in the input, `word[7:0]` (20_memory.md R33). -/
def lowByte (word : Word) : Byte := word.extractLsb' 0 8

/-- The byte of a word that stands second in the input, `word[15:8]` (20_memory.md R33). -/
def highByte (word : Word) : Byte := word.extractLsb' 8 8

/-- `decode`: field extraction, total on every word (40_bitfield_decoder.md R71, R72). -/
def decodeRecord (word : Word) : Record where
  width     := word.extractLsb' 0 1
  direction := word.extractLsb' 1 1
  opcode    := word.extractLsb' 2 6
  r_m       := word.extractLsb' 8 3
  reg       := word.extractLsb' 11 3
  mod       := word.extractLsb' 14 2

/-- The instruction of a word, or `UnknownOpcode` with the opcode that the opcode map does not list (30_encoding.md R55, R56; 41_register_name_lut.md R118). `mod` is no part of the match (30_encoding.md R57). -/
def decodeWord (word : Word) : Except Opcode Instr :=
  let f := decodeRecord word
  if f.wellFormed then .ok (.mov f.mod f.reg f.r_m f.direction f.width)
  else .error f.opcode

/-- The decoder on bytes: the first two bytes are one word, always (30_encoding.md R50); answers the instruction and the bytes after it. -/
def decode : List Byte → Except Reject (Instr × List Byte)
  | [] => .error .noBytes
  | [b] => .error (.trailingByte b)
  | lo :: hi :: rest =>
    match decodeWord (wordOfBytes lo hi) with
    | .ok i => .ok (i, rest)
    | .error v => .error (.unknownOpcode v)

/-- The re-encoding of a record by shifts and ors (40_bitfield_decoder.md R75). -/
def encodeRecord (f : Record) : Word :=
  (f.mod.setWidth 16 <<< 14) ||| (f.reg.setWidth 16 <<< 11) ||| (f.r_m.setWidth 16 <<< 8) |||
    (f.opcode.setWidth 16 <<< 2) ||| (f.direction.setWidth 16 <<< 1) ||| f.width.setWidth 16

/-- The word of an instruction: its record's, opcode 34 in bits 7:2 (30_encoding.md R51, R55; 40_bitfield_decoder.md R75). -/
def encodeWord (i : Instr) : Word := encodeRecord i.record

/-- The bytes of an instruction as they stand in the input: first `100010dw`, then `mmrrrsss` (30_encoding.md R52). -/
def encode (i : Instr) : List Byte := [lowByte (encodeWord i), highByte (encodeWord i)]

/-- The instruction word of `nbits` bits held in the number `w`, bit 0 its least significant bit; bits above `nbits` are 0. -/
def tableWord (nbits w : Nat) : Word := BitVec.ofNat 16 (w % 2 ^ nbits)

/-- What `decode` reads from the bytes of `tableWord nbits w`, laid out as the input holds them (20_memory.md R33). -/
def decodeTableWord (nbits w : Nat) : Option Instr :=
  match decode [lowByte (tableWord nbits w), highByte (tableWord nbits w)] with
  | .ok (i, _) => some i
  | .error _ => none

end Sys2Proof
end

