-- ==== Sys2Proof/Machine/State.lean ====
section
/-! DEFINITION. The state of the host's run over the core (10_state.md R25), its reset, and the reasons a step can stop. The core itself holds no state (10_state.md R14). -/

namespace Sys2Proof.Machine

/-- The input byte sequence as (offset, byte) pairs (20_memory.md R28). Canonical form (`Memory.wf`): the offsets are 0, 1, …, n-1 in this order; an offset that is not listed does not exist and reads as nothing (log entry 2). -/
abbrev Memory := List Host.Cell

/-- What an error is, with the value recorded for it (60_exceptions.md R140; 92_eei_decisions.md D17). -/
inductive Cause where
  /-- Raised by the core: the opcode is not 34; recorded with the word index. -/
  | unknownOpcode (v : Opcode) (k : Nat)
  /-- Raised by the host: the last byte of an input of odd length. -/
  | trailingByte (b : Byte)
  deriving DecidableEq, Repr

/-- One diagnostic of the host's log (60_exceptions.md R144, R146; 92_eei_decisions.md D17). -/
inductive Diag where
  /-- The host warns and goes on. -/
  | warn (c : Cause)
  /-- The host records the error and ends the run. -/
  | error (c : Cause)
  deriving DecidableEq, Repr

/-- The status of a run (10_state.md R25). -/
inductive Status where
  | running
  | done
  /-- `Aborted(UnknownOpcode v)`. -/
  | aborted (v : Opcode)
  /-- `Rejected(TrailingByte b)`. -/
  | rejected (b : Byte)
  deriving DecidableEq, Repr

/-- Why a step can stop. No instruction's meaning raises one. -/
inductive Fault where
  /-- Raised by the step in a state whose run has ended: no step is enabled from it (60_exceptions.md R147). Safe: a stuck state (log entry 5). -/
  | runEnded
  /-- Raised by the step when `k` is past the last word: no rule is enabled there and no run reaches it (10_state.md R22). Safe (log entry 6). -/
  | positionPastEnd (k : Nat)
  /-- Raised by the step when the input lists no byte at an offset below its length, which a canonical input never does (20_memory.md R28). Safe (log entry 2). -/
  | noSuchByte (addr : Nat)
  deriving DecidableEq, Repr

/-- Why a step can answer that an instruction has no meaning in the model. -/
inductive Refusal where
  /-- Raised by an arm of `exec` whose instruction has no meaning yet; no arm does. Safe. -/
  | notModelled (mnemonic : String)
  deriving DecidableEq, Repr

/-- The machine: the host's state and the parameters of its run (10_state.md R25, R26; log entry 1). -/
structure State where
  /-- `bytes`, the input; no step writes it (20_memory.md R40). -/
  mem            : Memory
  /-- The index of the next word (10_state.md R22). -/
  k              : Nat
  /-- Standard output, one entry a line, oldest first. -/
  lines          : List Text
  /-- The diagnostics, oldest first. -/
  diags          : List Diag
  status         : Status
  /-- ERROR_POLICY; no step writes it. -/
  errorPolicy    : ErrorPolicy
  /-- TRAILING_POLICY; no step writes it. -/
  trailingPolicy : TrailingPolicy
  deriving DecidableEq, Repr

/-- The start of a run (60_exceptions.md R142; 70_reset_and_hazards.md R171) with no input loaded (log entry 4) and the two open parameters at the constants of `Config` (log entry 3). -/
def State.reset : State where
  mem            := []
  k              := 0
  lines          := []
  diags          := []
  status         := .running
  errorPolicy    := Config.errorPolicy
  trailingPolicy := Config.trailingPolicy

end Sys2Proof.Machine
end

