-- ==== Sys2Proof/Machine/Flags.lean ====
section
/-! DEFINITION. The core has no flags (10_state.md R23); its one status output is `op_valid` of `mnemonic_lut` (10_state.md R18; 41_register_name_lut.md R116, R117). -/

namespace Sys2Proof.Machine

/-- The mnemonics of the closed lookup: `mov` alone (00_scope.md R8, MNEMONIC_COUNT). -/
inductive Mnemonic where
  | mov
  deriving DecidableEq, Repr

/-- The mnemonic index: MOV is 0 (41_register_name_lut.md R117; 92_eei_decisions.md D9). -/
def Mnemonic.index : Mnemonic → Bit
  | .mov => 0

/-- The mnemonic's text, in lower case (30_encoding.md R60). -/
def Mnemonic.text : Mnemonic → Text
  | .mov => ['m', 'o', 'v']

/-- Opcode recognition: `opcode == 34` (41_register_name_lut.md R116). -/
def opValid (opcode : Opcode) : Bit := BitVec.ofBool (opcode == Config.opcodeMov)

/-- The outputs of `mnemonic_lut` (10_state.md R18). -/
structure MnemOut where
  opValid : Bit
  mnemId  : Bit
  mnem0   : Byte
  mnem1   : Byte
  mnem2   : Byte
  deriving DecidableEq, Repr

/-- `mnemonic_lut` (41_register_name_lut.md R117). When `op_valid` is 0 the other outputs are the fixed fill values of the spec and mean nothing (log entry 11); the codes of "mov" are ASCII (log entry 7). -/
def mnemonicLut (opcode : Opcode) : MnemOut :=
  if opValid opcode = 1 then { opValid := opValid opcode, mnemId := Mnemonic.mov.index, mnem0 := 0x6D, mnem1 := 0x6F, mnem2 := 0x76 }
  else { opValid := opValid opcode, mnemId := 0, mnem0 := 0x00, mnem1 := 0x00, mnem2 := 0x00 }

end Sys2Proof.Machine
end

