-- ==== Sys2Proof/Machine/Operands.lean ====
section
/-! DEFINITION. The operand form of the hardware: `register_name_lut` and `operand_router` (10_state.md R17, R19; 41_register_name_lut.md R110 to R120). -/

namespace Sys2Proof.Machine

/-- The composite index `{sel, w} = (sel << 1) | w` (41_register_name_lut.md R110; 30_encoding.md R54). -/
def regIdOf (w : Bit) (sel : Sel) : RegId := (sel.setWidth 4 <<< 1) ||| w.setWidth 4

/-- The register name table, indices 0 to 15 in order (41_register_name_lut.md R112). -/
def regNameTable : Vector Text 16 :=
  #v[['a', 'l'], ['a', 'x'], ['c', 'l'], ['c', 'x'],
    ['d', 'l'], ['d', 'x'], ['b', 'l'], ['b', 'x'],
    ['a', 'h'], ['s', 'p'], ['c', 'h'], ['b', 'p'],
    ['d', 'h'], ['s', 'i'], ['b', 'h'], ['d', 'i']]

/-- `name(reg_id)`: a closed lookup, with an entry for every identity (41_register_name_lut.md R111, R112). -/
def regName (id : RegId) : Text := regNameTable[id.toNat]'(id.isLt)

/-- The character codes of the names, first letter first, indices 0 to 15 in order (41_register_name_lut.md R113; the ASCII codes are PRESUMED, log entry 7). -/
def regCodeTable : Vector (Byte × Byte) 16 :=
  #v[(0x61, 0x6C), (0x61, 0x78), (0x63, 0x6C), (0x63, 0x78),
    (0x64, 0x6C), (0x64, 0x78), (0x62, 0x6C), (0x62, 0x78),
    (0x61, 0x68), (0x73, 0x70), (0x63, 0x68), (0x62, 0x70),
    (0x64, 0x68), (0x73, 0x69), (0x62, 0x68), (0x64, 0x69)]

/-- The codes `name0` and `name1` of an identity (41_register_name_lut.md R113). -/
def regNameCodes (id : RegId) : Byte × Byte := regCodeTable[id.toNat]'(id.isLt)

/-- The outputs of `register_name_lut` (10_state.md R17). -/
structure LutOut where
  regId : RegId
  name0 : Byte
  name1 : Byte
  deriving DecidableEq, Repr

/-- `register_name_lut`: the identity of a selector and width, and its name's two codes (41_register_name_lut.md R110, R113, R115). -/
def registerNameLut (w : Bit) (sel : Sel) : LutOut :=
  let id := regIdOf w sel
  { regId := id, name0 := (regNameCodes id).1, name1 := (regNameCodes id).2 }

/-- Destination and source from the r_m side and the reg side: direction 0 makes r_m the destination, direction 1 makes reg the destination (41_register_name_lut.md R119). -/
def route {α : Type} (direction : Bit) (rm reg : α) : α × α :=
  if direction = 0 then (rm, reg) else (reg, rm)

/-- The outputs of `operand_router`: each identity with its name codes passed along (10_state.md R19). -/
structure RouterOut where
  dst : LutOut
  src : LutOut
  deriving DecidableEq, Repr

/-- `operand_router` over the outputs of the two lookup instances (10_state.md R19; 41_register_name_lut.md R119). -/
def operandRouter (direction : Bit) (rm reg : LutOut) : RouterOut :=
  let r := route direction rm reg
  { dst := r.1, src := r.2 }

end Sys2Proof.Machine
end

