-- ==== Sys2Proof/Machine/DecodeCore.lean ====
section
/-! DEFINITION. `decode_core`: the decode result of a word (41_register_name_lut.md R121) and the ports of the composition (10_state.md R20). Both are functions of the word alone (10_state.md R14). -/

namespace Sys2Proof.Machine

/-- The decode result: a discriminated value, not a trap (41_register_name_lut.md R118, R121). -/
inductive Result where
  | ok (m : Mnemonic) (dst src : RegId)
  | unknownOpcode (v : Opcode)
  deriving DecidableEq, Repr

/-- The result of a record whose opcode is 34 (41_register_name_lut.md R119, R121). -/
def movResult (f : Record) : Result :=
  let r := route f.direction (regIdOf f.width f.r_m) (regIdOf f.width f.reg)
  .ok .mov r.1 r.2

/-- `core(word)` of the spec: the decode result of every word (41_register_name_lut.md R121). -/
def coreResult (word : Word) : Result :=
  let f := decodeRecord word
  if f.opcode ≠ Config.opcodeMov then .unknownOpcode f.opcode else movResult f

/-- The outputs of `decode_core`: the decoder's fields passed through, the mnemonic outputs, and the routed operands (10_state.md R20). -/
structure CoreOut where
  fields   : Record
  mnemonic : MnemOut
  operands : RouterOut
  deriving DecidableEq, Repr

/-- `decode_core` on its ports: two lookup instances share `w = width` (10_state.md R17, R20). When `op_valid` is 0 the operand outputs are still driven by the same functions (92_eei_decisions.md D5; log entry 11). -/
def decodeCore (word : Word) : CoreOut :=
  let f := decodeRecord word
  { fields := f
    mnemonic := mnemonicLut f.opcode
    operands := operandRouter f.direction (registerNameLut f.width f.r_m) (registerNameLut f.width f.reg) }

/-- The line of a result that is `Ok` (41_register_name_lut.md R123). -/
def render (m : Mnemonic) (dst src : RegId) : Text :=
  m.text ++ [' '] ++ regName dst ++ [',', ' '] ++ regName src ++ ['\n']

/-- The code of a character on a port or in the output: ASCII (PRESUMED, log entry 7). -/
def charCode (c : Char) : Byte := BitVec.ofNat 8 c.toNat

/-- The bytes of a line, one a character (41_register_name_lut.md R123; log entry 7). -/
def lineBytes (l : Text) : List Byte := l.map charCode

/-- The eleven bytes of a line, put together from the ports of `decode_core` (41_register_name_lut.md R123). -/
def CoreOut.lineBytes (o : CoreOut) : List Byte :=
  [o.mnemonic.mnem0, o.mnemonic.mnem1, o.mnemonic.mnem2, 0x20,
   o.operands.dst.name0, o.operands.dst.name1, 0x2C, 0x20,
   o.operands.src.name0, o.operands.src.name1, 0x0A]

end Sys2Proof.Machine
end

