-- ==== Sys2Proof/Machine/Ops.lean ====
section
/-! DEFINITION. The named operations: reading the input and assembling words (20_memory.md R28 to R36), the host's two logs (00_scope.md R12), taking an unknown opcode, and ending a run (60_exceptions.md R144 to R146). -/

namespace Sys2Proof.Machine

/-- The numeric cause codes (60_exceptions.md R140; 92_eei_decisions.md D17). -/
def Cause.code : Cause → Nat
  | .unknownOpcode _ _ => 1
  | .trailingByte _ => 2

/-- The canonical form of the input: the offsets listed are 0, 1, …, n-1 in this order (20_memory.md R28). -/
def Memory.wf (m : Memory) : Bool := m.map Prod.fst == List.range m.length

/-- The input whose bytes, in file order, are `bs` (20_memory.md R29). -/
def Memory.ofBytes (bs : List Byte) : Memory := (List.range bs.length).zip bs

/-- `n`, the length of the input in bytes (20_memory.md R28). -/
def Memory.size (m : Memory) : Nat := m.length

/-- `MemRead(addr, 1)` (00_scope.md R12): the byte at an offset, nothing where the input has none. It has no side effect (20_memory.md R36). -/
def Memory.read (m : Memory) (addr : Nat) : Option Byte := m.lookup addr

/-- `W = floor(n / 2)`, the number of words (20_memory.md R30). -/
def Memory.wordCount (m : Memory) : Nat := m.size / Config.instrBytes

/-- `word_at(k)`: the word of bytes `2k` and `2k + 1` (20_memory.md R30, R33), or the offset the input lacks. -/
def Memory.wordAt (m : Memory) (k : Nat) : Except Nat Word :=
  match m.read (2 * k), m.read (2 * k + 1) with
  | some lo, some hi => .ok (wordOfBytes lo hi)
  | some _, none => .error (2 * k + 1)
  | none, _ => .error (2 * k)

/-- The input with the word `w` as its `k`-th word: as long as it was, or just long enough to hold that word. A byte the input lacks below it, which no run with `k ≤ W` has, is 0 (log entry 4). -/
def Memory.placeWord (m : Memory) (k : Nat) (w : Word) : Memory :=
  Memory.ofBytes ((List.range (max m.size (2 * k + 2))).map fun a =>
    if a = 2 * k then lowByte w else if a = 2 * k + 1 then highByte w else (m.read a).getD 0)

/-- The start of a run over the input `bs` with both policies given (60_exceptions.md R142; 70_reset_and_hazards.md R171, R172). -/
def State.start (bs : List Byte) (ep : ErrorPolicy) (tp : TrailingPolicy) : State where
  mem            := Memory.ofBytes bs
  k              := 0
  lines          := []
  diags          := []
  status         := .running
  errorPolicy    := ep
  trailingPolicy := tp

/-- `emit_line(s)`: `lines <- lines ++ [s]` (00_scope.md R12). -/
def State.emitLine (s : State) (l : Text) : State := { s with lines := s.lines ++ [l] }

/-- `emit_diag(d)`: `diags <- diags ++ [d]` (00_scope.md R12). -/
def State.emitDiag (s : State) (d : Diag) : State := { s with diags := s.diags ++ [d] }

/-- `k <- k + 1`: the position moves on by one word, 2 bytes (10_state.md R22). -/
def State.nextWord (s : State) : State := { s with k := s.k + 1 }

/-- The run's status changes (10_state.md R25). -/
def State.setStatus (s : State) (st : Status) : State := { s with status := st }

/-- The effect of an `Ok` result: the line is appended, then `k` moves on (60_exceptions.md R143). -/
def emitResult (m : Mnemonic) (dst src : RegId) (s : State) : State :=
  (s.emitLine (render m dst src)).nextWord

/-- Taking an unknown opcode `v` at word `k`: the error policy (60_exceptions.md R144). There is no trap entry and nothing is saved (60_exceptions.md R141, R149). -/
def takeUnknownOpcode (v : Opcode) (s : State) : State :=
  match s.errorPolicy with
  | .skip => (s.emitDiag (.warn (.unknownOpcode v s.k))).nextWord
  | .abort => (s.emitDiag (.error (.unknownOpcode v s.k))).setStatus (.aborted v)

/-- Taking the trailing byte `b` of an input of odd length (60_exceptions.md R146). -/
def takeTrailingByte (b : Byte) (s : State) : State :=
  match s.trailingPolicy with
  | .warn => (s.emitDiag (.warn (.trailingByte b))).setStatus .done
  | .reject => (s.emitDiag (.error (.trailingByte b))).setStatus (.rejected b)

/-- The end of the input, after its last word: `Done` when the length is even, the trailing byte's policy when it is odd (60_exceptions.md R145, R146). -/
def endOfInput (s : State) : Host.Outcome State Fault Refusal :=
  if s.mem.size % 2 = 0 then .next (s.setStatus .done)
  else
    match s.mem.read (s.mem.size - 1) with
    | some b => .next (takeTrailingByte b s)
    | none => .fault (.noSuchByte (s.mem.size - 1))

end Sys2Proof.Machine
end

