-- ==== Sys2Proof/Machine/Mov.lean ====
section
/-! DEFINITION. The meaning of `mov` (41_register_name_lut.md R122; 60_exceptions.md R143). -/

namespace Sys2Proof.Machine

/-- `mov`: the operands are named from `reg` and `r_m` by `d` and `w`, the host appends the line and goes on to the next word. No flag, no exception, no move, and `mod` is not read (41_register_name_lut.md R122; 00_scope.md R2; 40_bitfield_decoder.md R74). -/
def execMov (_mod : BitVec 2) (reg r_m : Sel) (d w : Bit) (s : State) : Host.Outcome State Fault Refusal :=
  let r := route d (regIdOf w r_m) (regIdOf w reg)
  .next (emitResult .mov r.1 r.2 s)

end Sys2Proof.Machine
end

