-- ==== Sys2Proof/Machine/Dispatch.lean ====
section
/-! DEFINITION. One arm per constructor of `Instr`: its meaning. -/

namespace Sys2Proof.Machine

def exec (i : Instr) (s : State) : Host.Outcome State Fault Refusal :=
  match i with
  | .mov mod reg r_m d w => Sys2Proof.Machine.execMov mod reg r_m d w s

end Sys2Proof.Machine
end

