-- ==== Sys2Proof/Machine/Run.lean ====
section
/-! DEFINITION. One step of the host's run, over `exec` (60_exceptions.md R143 to R147). -/

namespace Sys2Proof.Machine

/-- What the host does with the word it has cut: run the instruction, or take the unknown opcode (60_exceptions.md R143, R144). -/
def runWord (word : Word) (s : State) : Host.Outcome State Fault Refusal :=
  match decodeWord word with
  | .ok i => exec i s
  | .error v => .next (takeUnknownOpcode v s)

/-- A step of a running host: the word at `k`, or the end of the input when `k` has reached `W` (60_exceptions.md R143 to R146). -/
def runningStep (s : State) : Host.Outcome State Fault Refusal :=
  if s.k < s.mem.wordCount then
    match s.mem.wordAt s.k with
    | .ok word => runWord word s
    | .error a => .fault (.noSuchByte a)
  else if s.k = s.mem.wordCount then endOfInput s
  else .fault (.positionPastEnd s.k)

/-- A step of the host: no step is enabled once the run has ended (60_exceptions.md R147). -/
def hostStep (s : State) : Host.Outcome State Fault Refusal :=
  match s.status with
  | .running => runningStep s
  | .done | .aborted _ | .rejected _ => .fault .runEnded

end Sys2Proof.Machine
end

