-- ==== Sys2Proof/Machine/Step.lean ====
section
/-! DEFINITION. The step of the machine, and the state whose next step runs a given instruction word. -/

namespace Sys2Proof.Machine

/-- One step of the machine is one step of the host's run (60_exceptions.md R143 to R147). -/
def step (s : State) : Host.Outcome State Fault Refusal := hostStep s

/-- `s` with the instruction word `w` as the word at its position, in a run that is under way; it stands for the load of the input from outside (70_reset_and_hazards.md R172; log entry 4). -/
def State.withFetchWord (s : State) (nbits w : Nat) : State :=
  { s with mem := s.mem.placeWord s.k (tableWord nbits w), status := .running }

end Sys2Proof.Machine
end

