-- ==== Sys2Proof/Safety.lean ====
section
/-! DEFINITION. What a sound state and a run's result are, in the spec's own terms, without the step: claims compare the machine with these. -/

namespace Sys2Proof.Safety

open Sys2Proof.Machine

/-- A run has ended (60_exceptions.md R147). -/
def Ended (s : State) : Prop := s.status ≠ .running

/-- The words of an input, in file order, two bytes a word; a last odd byte is in none (20_memory.md R30, R32). -/
def wordsOf : List Byte → List Word
  | lo :: hi :: rest => wordOfBytes lo hi :: wordsOf rest
  | [_] => []
  | [] => []

/-- The byte of an input of odd length that belongs to no word (20_memory.md R32). -/
def trailingOf (bs : List Byte) : Option Byte := if bs.length % 2 = 0 then none else bs.getLast?

/-- The line of a word, if its result is `Ok` (41_register_name_lut.md R123, R124). -/
def lineOf (w : Word) : Option Text :=
  match coreResult w with
  | .ok m dst src => some (render m dst src)
  | .unknownOpcode _ => none

/-- What is observed of a run (60_exceptions.md R147). -/
structure Observation where
  lines  : List Text
  diags  : List Diag
  status : Status
  deriving DecidableEq, Repr

/-- What a state shows (60_exceptions.md R147). -/
def observe (s : State) : Observation := { lines := s.lines, diags := s.diags, status := s.status }

/-- What the end of an input adds, by its trailing byte (60_exceptions.md R145, R146). -/
def endReport (tp : TrailingPolicy) : Option Byte → Observation
  | none => { lines := [], diags := [], status := .done }
  | some b =>
    match tp with
    | .warn => { lines := [], diags := [.warn (.trailingByte b)], status := .done }
    | .reject => { lines := [], diags := [.error (.trailingByte b)], status := .rejected b }

/-- The report of the words from the `k`-th on, and of the end after them, as one recursion over the list of words (60_exceptions.md R143 to R146, 20_memory.md R39). -/
def report (ep : ErrorPolicy) (tp : TrailingPolicy) (tail : Option Byte) : Nat → List Word → Observation
  | _, [] => endReport tp tail
  | k, w :: ws =>
    match coreResult w with
    | .ok m dst src =>
      let o := report ep tp tail (k + 1) ws
      { o with lines := render m dst src :: o.lines }
    | .unknownOpcode v =>
      match ep with
      | .skip =>
        let o := report ep tp tail (k + 1) ws
        { o with diags := .warn (.unknownOpcode v k) :: o.diags }
      | .abort => { lines := [], diags := [.error (.unknownOpcode v k)], status := .aborted v }

/-- What a claim may say of an observation. Whether an aborted run reports the trailing byte, and where the trailing diagnostic stands among the others, is any value (93_implementation_defined.md I8; log entry 9). -/
structure Claim where
  lines         : List Text
  wordDiags     : List Diag
  trailingDiags : Option (List Diag)
  status        : Status
  deriving DecidableEq, Repr

/-- The report of a whole input. -/
def fileReport (bs : List Byte) (ep : ErrorPolicy) (tp : TrailingPolicy) : Observation :=
  report ep tp (trailingOf bs) 0 (wordsOf bs)

/-- The first `k` words of the input of a state. -/
def wordsBefore (s : State) : List Word := (wordsOf (s.mem.map Prod.snd)).take s.k

/-- The structural invariant: the input is canonical, `k` stays within the words, and a run that ended did so where the spec lets it (10_state.md R25; 60_exceptions.md R144 to R146). -/
structure Inv (s : State) : Prop where
  canonical : s.mem.wf = true
  position  : s.k ≤ s.mem.wordCount
  done      : s.status = .done → s.k = s.mem.wordCount
  aborted   : ∀ v, s.status = .aborted v →
    s.errorPolicy = .abort ∧ s.k < s.mem.wordCount ∧ ∃ w, s.mem.wordAt s.k = .ok w ∧ coreResult w = .unknownOpcode v
  rejected  : ∀ b, s.status = .rejected b →
    s.trailingPolicy = .reject ∧ s.k = s.mem.wordCount ∧ s.mem.size % 2 = 1 ∧ s.mem.read (s.mem.size - 1) = some b

/-- The lines are exactly those of the words before `k`, in order (20_memory.md R39; 41_register_name_lut.md R124). -/
def LinesExplained (s : State) : Prop := s.lines = (wordsBefore s).filterMap lineOf

/-- The word a diagnostic is about; a trailing byte is in no word (60_exceptions.md R140). -/
def wordIndexOf : Diag → Option Nat
  | .warn (.unknownOpcode _ k) | .error (.unknownOpcode _ k) => some k
  | .warn (.trailingByte _) | .error (.trailingByte _) => none

/-- The part of an observation that a claim may use: the diagnostics about words in their order, and those about the trailing byte only if the run was not aborted (93_implementation_defined.md I8). -/
def claimOf (o : Observation) : Claim where
  lines         := o.lines
  wordDiags     := o.diags.filter fun d => (wordIndexOf d).isSome
  trailingDiags :=
    match o.status with
    | .aborted _ => none
    | .running | .done | .rejected _ => some (o.diags.filter fun d => (wordIndexOf d).isNone)
  status        := o.status

/-- The diagnostics stand in word order, and none is about a word not yet processed (20_memory.md R39). -/
def DiagsOrdered (s : State) : Prop :=
  (s.diags.filterMap wordIndexOf).Pairwise (· < ·) ∧
    ∀ i ∈ s.diags.filterMap wordIndexOf, i < s.k ∨ (i = s.k ∧ s.status ≠ .running)

/-- Both logs are in the order of the input (20_memory.md R39). -/
def OutputInOrder (s : State) : Prop := LinesExplained s ∧ DiagsOrdered s

end Sys2Proof.Safety
end

