-- ==== Sys2Proof/Certificates/Slice0/Obligations.lean ====
section
/-! DEFINITION. The statements about the model, for the provers. Where a docstring names a decision D<n> of 92_eei_decisions.md or a log entry, that clause is the spec's own choice or the model's, not the source's. -/

open Sys2Proof Sys2Proof.Machine Sys2Proof.Safety

/-! ## The decoder and the encoding -/

/-- 40_bitfield_decoder.md R71: each field is a shift and a mask of the word's number, the corner words and the worked example give the values the rule lists, and the fields are independent: every tuple of field values occurs. -/
def Obligations.FieldsByShiftAndMask : Prop :=
  (∀ w : Word,
    (decodeRecord w).width.toNat = (w.toNat >>> 0) &&& 0x1 ∧
    (decodeRecord w).direction.toNat = (w.toNat >>> 1) &&& 0x1 ∧
    (decodeRecord w).opcode.toNat = (w.toNat >>> 2) &&& 0x3F ∧
    (decodeRecord w).r_m.toNat = (w.toNat >>> 8) &&& 0x7 ∧
    (decodeRecord w).reg.toNat = (w.toNat >>> 11) &&& 0x7 ∧
    (decodeRecord w).mod.toNat = (w.toNat >>> 14) &&& 0x3) ∧
  decodeRecord 0x0000 = { opcode := 0, direction := 0, width := 0, r_m := 0, reg := 0, mod := 0 } ∧
  decodeRecord 0xFFFF = { opcode := 63, direction := 1, width := 1, r_m := 7, reg := 7, mod := 3 } ∧
  decodeRecord 0xD989 = { opcode := 34, direction := 0, width := 1, r_m := 0b001, reg := 0b011, mod := 0b11 } ∧
  ∀ f : Record, ∃ w, decodeRecord w = f

/-- 40_bitfield_decoder.md section 3, the re-encoding law (derived there): `encode` and `decode` are inverse on words and on records, each field in place is the word under its mask, and the masks partition the word. -/
def Obligations.RecordsAndWordsAreInBijection : Prop :=
  (∀ w : Word, encodeRecord (decodeRecord w) = w) ∧
  (∀ f : Record, decodeRecord (encodeRecord f) = f) ∧
  (∀ w : Word,
    (decodeRecord w).width.setWidth 16 = w &&& 0x0001 ∧
    (decodeRecord w).direction.setWidth 16 <<< 1 = w &&& 0x0002 ∧
    (decodeRecord w).opcode.setWidth 16 <<< 2 = w &&& 0x00FC ∧
    (decodeRecord w).r_m.setWidth 16 <<< 8 = w &&& 0x0700 ∧
    (decodeRecord w).reg.setWidth 16 <<< 11 = w &&& 0x3800 ∧
    (decodeRecord w).mod.setWidth 16 <<< 14 = w &&& 0xC000) ∧
  ([0x0001, 0x0002, 0x00FC, 0x0700, 0x3800, 0xC000] : List Word).Pairwise (fun a b => a &&& b = 0) ∧
  ([0x0001, 0x0002, 0x00FC, 0x0700, 0x3800, 0xC000] : List Word).foldr (· ||| ·) 0 = 0xFFFF

/-- 40_bitfield_decoder.md section 3, single-bit sensitivity (derived there): flipping bit `i` changes a field exactly when the field's mask holds bit `i`. -/
def Obligations.OneBitChangesOneField : Prop :=
  ∀ (w : Word) (i : Fin 16),
    ((decodeRecord (w ^^^ (1#16 <<< i.val))).width ≠ (decodeRecord w).width ↔ (0x0001#16).getLsbD i.val = true) ∧
    ((decodeRecord (w ^^^ (1#16 <<< i.val))).direction ≠ (decodeRecord w).direction ↔ (0x0002#16).getLsbD i.val = true) ∧
    ((decodeRecord (w ^^^ (1#16 <<< i.val))).opcode ≠ (decodeRecord w).opcode ↔ (0x00FC#16).getLsbD i.val = true) ∧
    ((decodeRecord (w ^^^ (1#16 <<< i.val))).r_m ≠ (decodeRecord w).r_m ↔ (0x0700#16).getLsbD i.val = true) ∧
    ((decodeRecord (w ^^^ (1#16 <<< i.val))).reg ≠ (decodeRecord w).reg ↔ (0x3800#16).getLsbD i.val = true) ∧
    ((decodeRecord (w ^^^ (1#16 <<< i.val))).mod ≠ (decodeRecord w).mod ↔ (0xC000#16).getLsbD i.val = true)

/-- 95_test_vectors.md sections 1 and 2: words written out there decode as they say; bit patterns `mmrrrsss100010dw`. -/
def Obligations.SpecWordsDecode : Prop :=
  decodeWord 0b1101100110001001 = .ok (.mov 0b11 0b011 0b001 0 1) ∧
  decodeWord 0b1100101110001011 = .ok (.mov 0b11 0b001 0b011 1 1) ∧
  decodeWord 0b0100111110001010 = .ok (.mov 0b01 0b001 0b111 1 0) ∧
  decodeWord 0b0000000010001000 = .ok (.mov 0b00 0b000 0b000 0 0) ∧
  decodeWord 0b0000000000000000 = .error 0 ∧
  decodeWord 0b1101100110000111 = .error 33 ∧
  decodeWord 0b1101100110001100 = .error 35 ∧
  decodeWord 0b1111111111111111 = .error 63

/-- 30_encoding.md sections 1 and 3, 40_bitfield_decoder.md section 3 (derived there): decoding the bytes of any instruction, whatever follows them, gives it back with the bytes after it; every word that decodes is the word of its instruction; and decoding takes exactly two bytes. -/
def Obligations.DecodeAndEncodeAgree : Prop :=
  (∀ (i : Instr) (rest : List Byte), decode (encode i ++ rest) = .ok (i, rest)) ∧
  (∀ (w : Word) (i : Instr), decodeWord w = .ok i → encodeWord i = w) ∧
  (∀ (bs rest : List Byte) (i : Instr), decode bs = .ok (i, rest) → bs = encode i ++ rest)

/-- 30_encoding.md section 3 (the first-byte table is derived there): the words that are `mov` are those under the table's mask, which are those whose first byte is 0x88 to 0x8B; every other word is rejected with its own opcode. -/
def Obligations.MovWordsAreTheMaskedOnes : Prop :=
  ∀ w : Word,
    ((∃ i, decodeWord w = .ok i) ↔ w &&& 0x00FC = 0x0088) ∧
    (w &&& 0x00FC = 0x0088 ↔ lowByte w ∈ ([0x88, 0x89, 0x8A, 0x8B] : List Byte)) ∧
    (¬ w &&& 0x00FC = 0x0088 → decodeWord w = .error (decodeRecord w).opcode)

/-- 30_encoding.md section 5 (derived there): two mov words render the same line exactly when they have the same width and either agree in d, reg and r_m or differ in d with reg and r_m exchanged; `mod` is free. -/
def Obligations.SameLineExactlyForSwappedForms : Prop :=
  ∀ (m₁ m₂ : BitVec 2) (g₁ r₁ g₂ r₂ : Sel) (d₁ w₁ d₂ w₂ : Bit),
    lineOf (encodeWord (.mov m₁ g₁ r₁ d₁ w₁)) = lineOf (encodeWord (.mov m₂ g₂ r₂ d₂ w₂)) ↔
      w₁ = w₂ ∧ ((d₁ = d₂ ∧ g₁ = g₂ ∧ r₁ = r₂) ∨ (d₁ ≠ d₂ ∧ g₁ = r₂ ∧ r₁ = g₂))

/-! ## The lookups, the router and the decode result -/

/-- 41_register_name_lut.md R110: the composite index is `{sel, w}`, 0 to 15, with the rule's corner cases and worked example; the lookup drives it. -/
def Obligations.CompositeIndex : Prop :=
  (∀ (w : Bit) (sel : Sel), (registerNameLut w sel).regId.toNat = 2 * sel.toNat + w.toNat) ∧
  (registerNameLut 0 0).regId = 0 ∧ (registerNameLut 1 7).regId = 15 ∧ (registerNameLut 1 0b011).regId = 7

/-- 41_register_name_lut.md R111, R112: every identity has the name of the table, with the table's selector and width; the names are distinct and have two lower-case letters. -/
def Obligations.RegisterNames : Prop :=
  (List.range 16).map (fun n => regName (BitVec.ofNat 4 n)) =
    ["al".toList, "ax".toList, "cl".toList, "cx".toList, "dl".toList, "dx".toList, "bl".toList, "bx".toList,
     "ah".toList, "sp".toList, "ch".toList, "bp".toList, "dh".toList, "si".toList, "bh".toList, "di".toList] ∧
  (∀ id : RegId, regIdOf (id.extractLsb' 0 1) (id.extractLsb' 1 3) = id) ∧
  (∀ a b : RegId, regName a = regName b → a = b) ∧
  (∀ id : RegId, (regName id).length = 2 ∧ (regName id).all Char.isLower = true)

/-- 41_register_name_lut.md section 1, name characters (92_eei_decisions.md D8; ASCII is PRESUMED, log entry 7): the lookup drives the codes of the name it stands for. -/
def Obligations.NameCodesSpellTheName : Prop :=
  ∀ (w : Bit) (sel : Sel),
    [(registerNameLut w sel).name0, (registerNameLut w sel).name1] = (regName (registerNameLut w sel).regId).map charCode

/-- 41_register_name_lut.md R116: the opcode is recognised exactly when it is 34, and it resolves to "mov". -/
def Obligations.OpcodeRecognition : Prop :=
  (∀ op : Opcode, opValid op = 1 ↔ op = 34) ∧ Mnemonic.mov.text = "mov".toList ∧
  ∀ w : Word, opValid (decodeRecord w).opcode = 1 ↔ ∃ dst src, coreResult w = .ok .mov dst src

/-- 41_register_name_lut.md section 2, mnemonic outputs (92_eei_decisions.md D5, D8, D9; log entries 7 and 11): "mov" and index 0 for opcode 34, the fill values for every other. -/
def Obligations.MnemonicOutputs : Prop :=
  ∀ op : Opcode,
    (op = 34 → mnemonicLut op = { opValid := 1, mnemId := 0, mnem0 := 0x6D, mnem1 := 0x6F, mnem2 := 0x76 }) ∧
    (op ≠ 34 → mnemonicLut op = { opValid := 0, mnemId := 0, mnem0 := 0x00, mnem1 := 0x00, mnem2 := 0x00 })

/-- 41_register_name_lut.md R119: direction 0 makes r_m the destination and reg the source, direction 1 the reverse; equal selectors make them equal; the worked example. -/
def Obligations.OperandRoles : Prop :=
  (∀ w : Word,
    let f := decodeRecord w
    let idRm := (registerNameLut f.width f.r_m).regId
    let idReg := (registerNameLut f.width f.reg).regId
    let out := (decodeCore w).operands
    (f.direction = 0 → out.dst.regId = idRm ∧ out.src.regId = idReg) ∧
    (f.direction ≠ 0 → out.dst.regId = idReg ∧ out.src.regId = idRm) ∧
    (f.reg = f.r_m → out.dst.regId = out.src.regId)) ∧
  (operandRouter 0 (registerNameLut 1 1) (registerNameLut 1 3)).dst.regId = 3 ∧
  (operandRouter 0 (registerNameLut 1 1) (registerNameLut 1 3)).src.regId = 7

/-- 41_register_name_lut.md section 3, direction inversion (derived there): flipping only bit 1 exchanges destination and source and leaves the mnemonic. -/
def Obligations.DirectionInversion : Prop :=
  ∀ w : Word,
    (decodeCore (w ^^^ 0x0002)).operands.dst = (decodeCore w).operands.src ∧
    (decodeCore (w ^^^ 0x0002)).operands.src = (decodeCore w).operands.dst ∧
    (decodeCore (w ^^^ 0x0002)).mnemonic = (decodeCore w).mnemonic ∧
    ∀ m dst src, coreResult w = .ok m dst src → coreResult (w ^^^ 0x0002) = .ok m src dst

/-- 41_register_name_lut.md R118: a word whose opcode is in the table gives the success variant, and any other gives the failure variant with the opcode's value. -/
def Obligations.LookupFailureIsAValue : Prop :=
  ∀ w : Word,
    ((decodeRecord w).opcode = 34 → ∃ dst src, coreResult w = .ok .mov dst src) ∧
    ((decodeRecord w).opcode ≠ 34 → coreResult w = .unknownOpcode (decodeRecord w).opcode)

/-- 40_bitfield_decoder.md sections 2 and 3 (92_eei_decisions.md D3, D4; log entry 10): words that differ only in `mod` have the same result, line, mnemonic and operands. -/
def Obligations.ModIsNeverRead : Prop :=
  ∀ w₁ w₂ : Word, w₁ &&& 0x3FFF = w₂ &&& 0x3FFF →
    coreResult w₁ = coreResult w₂ ∧ lineOf w₁ = lineOf w₂ ∧
    (decodeCore w₁).mnemonic = (decodeCore w₂).mnemonic ∧ (decodeCore w₁).operands = (decodeCore w₂).operands

/-- 10_state.md section 2 and 41_register_name_lut.md sections 4 and 6 (92_eei_decisions.md D5, D8; log entries 7 and 11): the ports of decode_core carry the decode result, and the bytes of an `Ok` word's line, always eleven, are those its ports spell. -/
def Obligations.PortsCarryTheResult : Prop :=
  ∀ w : Word,
    (∀ m dst src, coreResult w = .ok m dst src →
      (decodeCore w).mnemonic.opValid = 1 ∧ (decodeCore w).mnemonic.mnemId = m.index ∧
      (decodeCore w).operands.dst.regId = dst ∧ (decodeCore w).operands.src.regId = src ∧
      lineBytes (render m dst src) = (decodeCore w).lineBytes ∧ (lineBytes (render m dst src)).length = 11) ∧
    (∀ v, coreResult w = .unknownOpcode v →
      (decodeCore w).mnemonic.opValid = 0 ∧ (decodeCore w).fields.opcode = v ∧ v ≠ 34)

/-! ## The instruction -/

/-- 41_register_name_lut.md R122: for every operand of `mov`, its word matches the pattern and its result and line are those of the rule; the corner cases; every word of opcode 34 is `Ok`; the worked example. -/
def Obligations.MovDecodeResult : Prop :=
  (∀ (mod : BitVec 2) (reg r_m : Sel) (d w : Bit),
    let word := encodeWord (.mov mod reg r_m d w)
    let dst := if d = 1 then regIdOf w reg else regIdOf w r_m
    let src := if d = 1 then regIdOf w r_m else regIdOf w reg
    word &&& 0x00FC = 0x0088 ∧
    coreResult word = .ok .mov dst src ∧
    lineOf word = some ("mov ".toList ++ regName dst ++ ", ".toList ++ regName src ++ "\n".toList) ∧
    (reg = r_m → dst = src) ∧
    (w = 0 → ∀ id ∈ [dst, src], regName id ∈
      ["al".toList, "cl".toList, "dl".toList, "bl".toList, "ah".toList, "ch".toList, "dh".toList, "bh".toList]) ∧
    (w = 1 → ∀ id ∈ [dst, src], regName id ∈
      ["ax".toList, "cx".toList, "dx".toList, "bx".toList, "sp".toList, "bp".toList, "si".toList, "di".toList]) ∧
    ∀ mod' : BitVec 2, coreResult (encodeWord (.mov mod' reg r_m d w)) = coreResult word ∧
      lineOf (encodeWord (.mov mod' reg r_m d w)) = lineOf word) ∧
  (∀ word : Word, (decodeRecord word).opcode = 34 → ∃ dst src, coreResult word = .ok .mov dst src) ∧
  wordOfBytes 0x89 0xD9 = 0xD989 ∧ lineOf 0xD989 = some "mov cx, bx\n".toList

/-- 41_register_name_lut.md section 5 and 60_exceptions.md section 2; that `exec` holds the host's effect is the model's choice (log entry 17): `mov` completes in every state, with every operand, and this is all it does. -/
def Obligations.MovCompletes : Prop :=
  ∀ (mod : BitVec 2) (reg r_m : Sel) (d w : Bit) (s : State),
    exec (.mov mod reg r_m d w) s = .next { s with
      lines := s.lines ++ ["mov ".toList ++ regName (if d = 1 then regIdOf w reg else regIdOf w r_m) ++ ", ".toList ++
        regName (if d = 1 then regIdOf w r_m else regIdOf w reg) ++ "\n".toList]
      k := s.k + 1 }

/-- The frame of `mov` (00_scope.md section 1, 41_register_name_lut.md section 5; log entry 17): no byte of the input, no diagnostic, no status, no policy and no earlier line changes. -/
def Obligations.MovFrame : Prop :=
  ∀ (mod : BitVec 2) (reg r_m : Sel) (d w : Bit) (s t : State), exec (.mov mod reg r_m d w) s = .next t →
    (∀ a, t.mem.read a = s.mem.read a) ∧ t.mem = s.mem ∧ t.diags = s.diags ∧ t.status = s.status ∧
    t.errorPolicy = s.errorPolicy ∧ t.trailingPolicy = s.trailingPolicy ∧
    t.k = s.k + 1 ∧ (∃ l, t.lines = s.lines ++ [l])

/-! ## The input -/

/-- 20_memory.md section 3 (that the two bytes are the two halves is derived there): a word is its first byte plus 256 times its second, and its halves are those bytes. -/
def Obligations.WordsAreLittleEndian : Prop :=
  ∀ (m : Memory) (k : Nat) (lo hi : Byte), m.read (2 * k) = some lo → m.read (2 * k + 1) = some hi →
    ∃ w, m.wordAt k = .ok w ∧ w.toNat = lo.toNat + 256 * hi.toNat ∧ lowByte w = lo ∧ highByte w = hi

/-- 20_memory.md R30: an input of `n` bytes has `floor(n / 2)` words; word `k` is made of bytes `2k` and `2k + 1`, in file order; every instruction is 2 bytes. -/
def Obligations.InputIsCutIntoWords : Prop :=
  (∀ bs : List Byte,
    (Memory.ofBytes bs).wordCount = bs.length / 2 ∧ (wordsOf bs).length = bs.length / 2 ∧
    ∀ k, k < bs.length / 2 → ∃ lo hi, bs[2 * k]? = some lo ∧ bs[2 * k + 1]? = some hi ∧
      (Memory.ofBytes bs).wordAt k = .ok (wordOfBytes lo hi) ∧ (wordsOf bs)[k]? = some (wordOfBytes lo hi)) ∧
  ∀ i : Instr, (encode i).length = 2

/-- 20_memory.md sections 2 and 3: every byte of the input is in exactly one word, in order, or is the trailing byte of an odd input. -/
def Obligations.EveryByteIsAccountedFor : Prop :=
  ∀ bs : List Byte,
    (wordsOf bs).flatMap (fun w => [lowByte w, highByte w]) ++ (trailingOf bs).toList = bs ∧
    ((trailingOf bs).isSome ↔ bs.length % 2 = 1)

/-! ## A step of the run -/

/-- 60_exceptions.md section 2 (92_eei_decisions.md D13): a run starts at word 0 with both logs empty; `State.reset` is that start with no input and the open parameters at their constants (log entries 3 and 4). -/
def Obligations.StartOfRun : Prop :=
  (∀ (bs : List Byte) (ep : ErrorPolicy) (tp : TrailingPolicy),
    (State.start bs ep tp).k = 0 ∧ (State.start bs ep tp).lines = [] ∧ (State.start bs ep tp).diags = [] ∧
    (State.start bs ep tp).status = .running ∧ ∀ a, (State.start bs ep tp).mem.read a = bs[a]?) ∧
  State.reset = State.start [] Config.errorPolicy Config.trailingPolicy

/-- 60_exceptions.md section 2; the split of a step into decoding and `exec` is the model's (log entry 17): when the two bytes at `k` decode to an instruction, the step is that instruction's meaning, with nothing around it. -/
def Obligations.StepRunsTheDecodedInstruction : Prop :=
  ∀ (s : State) (lo hi : Byte) (i : Instr), s.status = .running → s.k < s.mem.wordCount →
    s.mem.read (2 * s.k) = some lo → s.mem.read (2 * s.k + 1) = some hi → decode [lo, hi] = .ok (i, []) →
    step s = exec i s

/-- 60_exceptions.md R143: a running host whose word has an `Ok` result appends its line and goes on to the next word. -/
def Obligations.OkWordEmitsItsLine : Prop :=
  ∀ (s : State) (w : Word) (m : Mnemonic) (dst src : RegId), s.status = .running → s.k < s.mem.wordCount →
    s.mem.wordAt s.k = .ok w → coreResult w = .ok m dst src →
    step s = .next { s with lines := s.lines ++ [render m dst src], k := s.k + 1 }

/-- 60_exceptions.md section 2, an unknown opcode (92_eei_decisions.md D6, D17): `skip` warns and goes on, `abort` records the error and ends the run; no line is emitted under either. -/
def Obligations.UnknownOpcodeFollowsThePolicy : Prop :=
  ∀ (s : State) (w : Word) (v : Opcode), s.status = .running → s.k < s.mem.wordCount →
    s.mem.wordAt s.k = .ok w → coreResult w = .unknownOpcode v →
    (s.errorPolicy = .skip → step s = .next { s with diags := s.diags ++ [.warn (.unknownOpcode v s.k)], k := s.k + 1 }) ∧
    (s.errorPolicy = .abort → step s = .next { s with diags := s.diags ++ [.error (.unknownOpcode v s.k)], status := .aborted v })

/-- 60_exceptions.md R145: at the end of an input of even length the run is done and nothing else changes; an empty input goes straight to done. -/
def Obligations.EvenInputEndsDone : Prop :=
  (∀ s : State, s.status = .running → s.k = s.mem.wordCount → s.mem.size % 2 = 0 → step s = .next { s with status := .done }) ∧
  ∀ (ep : ErrorPolicy) (tp : TrailingPolicy),
    step (State.start [] ep tp) = .next { State.start [] ep tp with status := .done, lines := [], diags := [] }

/-- 60_exceptions.md section 2, odd length (92_eei_decisions.md D7, D18): after the last word the trailing byte is warned about and the run is done, or recorded as an error and the run is rejected. -/
def Obligations.OddInputReportsTheTrailingByte : Prop :=
  ∀ (s : State) (b : Byte), s.status = .running → s.k = s.mem.wordCount → s.mem.size % 2 = 1 →
    s.mem.read (s.mem.size - 1) = some b →
    (s.trailingPolicy = .warn → step s = .next { s with diags := s.diags ++ [.warn (.trailingByte b)], status := .done }) ∧
    (s.trailingPolicy = .reject → step s = .next { s with diags := s.diags ++ [.error (.trailingByte b)], status := .rejected b })

/-- 60_exceptions.md section 2, end of a run (derived there; the fault is the model's stuck state, log entry 5): in a sound state a step answers a next state exactly while the run is under way, and an ended run is stuck. -/
def Obligations.StepAnswersExactlyWhileRunning : Prop :=
  (∀ s : State, Inv s → ((∃ t, step s = .next t) ↔ s.status = .running)) ∧
  ∀ s : State, Ended s → step s = .fault .runEnded

/-- 10_state.md sections 4 and 5, 60_exceptions.md section 2 (92_eei_decisions.md D10, D17): what a step can change. It adds one line and one to `k`, or one diagnostic and one to `k`, or ends the run with at most one diagnostic; the earlier entries of both logs stay. -/
def Obligations.StepChangesAtMostOneLog : Prop :=
  ∀ s t : State, step s = .next t →
    (t.k = s.k + 1 ∧ t.status = .running ∧ t.diags = s.diags ∧ ∃ l, t.lines = s.lines ++ [l]) ∨
    (t.k = s.k + 1 ∧ t.status = .running ∧ t.lines = s.lines ∧ ∃ d, t.diags = s.diags ++ [d]) ∨
    (t.k = s.k ∧ Ended t ∧ t.lines = s.lines ∧ ∃ ds, ds.length ≤ 1 ∧ t.diags = s.diags ++ ds)

/-- 20_memory.md sections 4 and 6 (92_eei_decisions.md D16), 10_state.md section 5: over any number of steps from any state nothing writes the input or the policies. -/
def Obligations.RunNeverWritesItsInput : Prop :=
  ∀ (n : Nat) (s t : State), Sys2Proof.core.run n s = .next t →
    t.mem = s.mem ∧ (∀ a, t.mem.read a = s.mem.read a) ∧
    t.errorPolicy = s.errorPolicy ∧ t.trailingPolicy = s.trailingPolicy

/-- 70_reset_and_hazards.md section 3 (92_eei_decisions.md D14) and 10_state.md section 1: no other word affects what a step does with the word at `k`; two runs that differ in the rest of their inputs make the same change. -/
def Obligations.StepReadsOnlyItsOwnWord : Prop :=
  ∀ s₁ s₂ : State, Inv s₁ → Inv s₂ → s₁.status = .running → s₂.status = .running →
    s₁.k < s₁.mem.wordCount → s₂.k < s₂.mem.wordCount →
    s₁.k = s₂.k → s₁.lines = s₂.lines → s₁.diags = s₂.diags → s₁.errorPolicy = s₂.errorPolicy →
    s₁.mem.read (2 * s₁.k) = s₂.mem.read (2 * s₂.k) → s₁.mem.read (2 * s₁.k + 1) = s₂.mem.read (2 * s₂.k + 1) →
    ∃ t₁ t₂ : State, step s₁ = .next t₁ ∧ step s₂ = .next t₂ ∧
      t₁.k = t₂.k ∧ t₁.lines = t₂.lines ∧ t₁.diags = t₂.diags ∧ t₁.status = t₂.status

/-- The model's own load (log entry 4): from any state, the very next step after `withFetchWord` runs the instruction that the table's word decodes to. -/
def Obligations.PlacedWordIsTheNextRun : Prop :=
  ∀ (s : State) (nbits w : Nat) (i : Instr), decodeTableWord nbits w = some i →
    (s.withFetchWord nbits w).mem.wf = true ∧ step (s.withFetchWord nbits w) = exec i (s.withFetchWord nbits w)

/-! ## Invariants and whole runs -/

/-- The invariant holds at the start of every run and at reset (10_state.md section 5). -/
def Obligations.StartIsSound : Prop :=
  (∀ (bs : List Byte) (ep : ErrorPolicy) (tp : TrailingPolicy), Inv (State.start bs ep tp)) ∧ Inv State.reset

/-- Every step keeps the invariant, from every state that has it (10_state.md section 5; 20_memory.md section 1; 60_exceptions.md section 2): the input stays canonical, `k` stays within the words, and a run that has ended did so where the spec lets it. -/
def Obligations.StepKeepsSoundness : Prop :=
  ∀ s t : State, Inv s → step s = .next t → Inv t

/-- 20_memory.md R39: both logs are in the order of the input. It holds at the start and every step keeps it: `lines` are the lines of the words before `k`, in word order, and the diagnostics about words stand in word order. -/
def Obligations.OutputFollowsInputOrder : Prop :=
  (∀ (bs : List Byte) (ep : ErrorPolicy) (tp : TrailingPolicy), OutputInOrder (State.start bs ep tp)) ∧
  ∀ s t : State, Inv s → OutputInOrder s → step s = .next t → OutputInOrder t

/-- 60_exceptions.md section 2, end of a run (derived there): from every sound state that is running, the run ends within the words that are left and one step more, with no fault on the way. -/
def Obligations.EveryRunEnds : Prop :=
  ∀ s : State, Inv s → s.status = .running →
    ∃ n, n ≤ s.mem.wordCount - s.k + 1 ∧ ∃ t : State, Sys2Proof.core.run n s = .next t ∧ Ended t

/-- 60_exceptions.md section 2 (92_eei_decisions.md D6, D7, D17; log entries 8 and 9): the run of every input under every policy ends showing the report that one recursion over the input's words defines. As 93_implementation_defined.md I8 asks, it says nothing of a trailing byte in an aborted run, nor of where the trailing diagnostic stands. -/
def Obligations.RunShowsTheReport : Prop :=
  ∀ (bs : List Byte) (ep : ErrorPolicy) (tp : TrailingPolicy),
    ∃ n, n ≤ bs.length / 2 + 1 ∧ ∃ t : State, Sys2Proof.core.run n (State.start bs ep tp) = .next t ∧
      Ended t ∧ claimOf (observe t) = claimOf (fileReport bs ep tp)

/-- 20_memory.md section 6, parallel decoding (92_eei_decisions.md D20): under `skip` the lines of a run are the words' lines, each decoded on its own; under `abort` they are those of the words before the first unknown opcode. -/
def Obligations.LinesAreTheWordsDecodedApart : Prop :=
  ∀ (bs : List Byte) (tp : TrailingPolicy),
    (∃ n, ∃ t : State, Sys2Proof.core.run n (State.start bs .skip tp) = .next t ∧ Ended t ∧
      t.k = bs.length / 2 ∧ t.lines = (wordsOf bs).filterMap lineOf) ∧
    (∃ n, ∃ t : State, Sys2Proof.core.run n (State.start bs .abort tp) = .next t ∧ Ended t ∧
      t.lines = ((wordsOf bs).takeWhile fun w => (lineOf w).isSome).filterMap lineOf)
end

