-- ==== Sys2Proof/Laws/Decode.lean ====
section
/-! SUPPORT. Small lemmas of the decoder and of the decode result, and how the two agree. -/

namespace Sys2Proof

theorem Record.wellFormed_iff (f : Record) : f.wellFormed = true ↔ f.opcode = Config.opcodeMov := by
  simp [Record.wellFormed]

@[simp] theorem Instr.wellFormed_all (i : Instr) : i.wellFormed = true := by
  cases i
  simp [Instr.wellFormed, Instr.record, Record.wellFormed]

theorem decodeWord_of_mov {w : Word} (h : (decodeRecord w).opcode = Config.opcodeMov) :
    decodeWord w =
      .ok (.mov (decodeRecord w).mod (decodeRecord w).reg (decodeRecord w).r_m (decodeRecord w).direction (decodeRecord w).width) := by
  simp [decodeWord, (Record.wellFormed_iff _).mpr h]

theorem decodeWord_of_unknown {w : Word} (h : (decodeRecord w).opcode ≠ Config.opcodeMov) :
    decodeWord w = .error (decodeRecord w).opcode := by
  have h' : ¬ (decodeRecord w).wellFormed = true := fun hw => h ((Record.wellFormed_iff _).mp hw)
  simp only [decodeWord]
  exact if_neg h'

namespace Machine

theorem coreResult_of_mov {w : Word} (h : (decodeRecord w).opcode = Config.opcodeMov) :
    coreResult w = movResult (decodeRecord w) := by
  simp [coreResult, h]

theorem coreResult_of_unknown {w : Word} (h : (decodeRecord w).opcode ≠ Config.opcodeMov) :
    coreResult w = .unknownOpcode (decodeRecord w).opcode := by
  simp only [coreResult]
  exact if_pos h

/-- The decoder's rejection and the core's `UnknownOpcode` are the same event. -/
theorem decodeWord_error_iff {w : Word} {v : Opcode} : decodeWord w = .error v ↔ coreResult w = .unknownOpcode v := by
  by_cases h : (decodeRecord w).opcode = Config.opcodeMov
  · simp [decodeWord_of_mov h, coreResult_of_mov h, movResult]
  · simp [decodeWord_of_unknown h, coreResult_of_unknown h]

/-- What the core answers for a word whose decoding is a `mov`. -/
theorem coreResult_of_decodeWord {w : Word} {mod : BitVec 2} {reg r_m : Sel} {d wd : Bit}
    (h : decodeWord w = .ok (.mov mod reg r_m d wd)) :
    coreResult w = .ok .mov (route d (regIdOf wd r_m) (regIdOf wd reg)).1 (route d (regIdOf wd r_m) (regIdOf wd reg)).2 := by
  by_cases ho : (decodeRecord w).opcode = Config.opcodeMov
  · rw [decodeWord_of_mov ho] at h
    cases h
    rw [coreResult_of_mov ho, movResult]
  · rw [decodeWord_of_unknown ho] at h
    cases h

@[simp] theorem route_zero {α : Type} (a b : α) : route 0#1 a b = (a, b) := rfl

@[simp] theorem route_one {α : Type} (a b : α) : route 1#1 a b = (b, a) := rfl

end Machine

end Sys2Proof
end

