-- ==== Sys2Proof/Laws/Memory.lean ====
section
/-! SUPPORT. What the input operations answer: length, reads, the canonical form, and the words of a canonical input. -/

namespace Sys2Proof.Machine.Memory

@[simp] theorem size_ofBytes (bs : List Byte) : (ofBytes bs).size = bs.length := by
  simp [size, ofBytes]

@[simp] theorem wordCount_ofBytes (bs : List Byte) : (ofBytes bs).wordCount = bs.length / 2 := by
  simp [wordCount]

theorem wordCount_eq (m : Memory) : m.wordCount = m.size / 2 := rfl

/-- A lookup in consecutive offsets from `a` is an index into the bytes. -/
theorem lookup_zip_range' (bs : List Byte) (a addr : Nat) :
    ((List.range' a bs.length).zip bs).lookup addr = if a ≤ addr then bs[addr - a]? else none := by
  induction bs generalizing a with
  | nil => simp
  | cons b bs ih =>
    simp only [List.length_cons, List.range'_succ, List.zip_cons_cons, List.lookup_cons, ih]
    rcases Nat.lt_trichotomy a addr with h | h | h
    · have hb : (addr == a) = false := by simp; omega
      have e : addr - a = (addr - (a + 1)) + 1 := by omega
      have h1 : a + 1 ≤ addr := h
      have h2 : a ≤ addr := by omega
      rw [hb, e]
      simp [h1, h2]
    · subst h; simp
    · have hb : (addr == a) = false := by simp; omega
      have h1 : ¬ a + 1 ≤ addr := by omega
      have h2 : ¬ a ≤ addr := by omega
      simp [hb, h1, h2]

/-- Reading an input made of `bs` is indexing `bs`; an offset past its end reads as nothing. -/
@[simp] theorem read_ofBytes (bs : List Byte) (addr : Nat) : (ofBytes bs).read addr = bs[addr]? := by
  simp [read, ofBytes, List.range_eq_range', lookup_zip_range']

@[simp] theorem wf_ofBytes (bs : List Byte) : (ofBytes bs).wf = true := by
  simp [wf, ofBytes, List.map_fst_zip]

/-- A canonical input is the one made of its own bytes, so equal inputs are equal data. -/
theorem eq_ofBytes_of_wf {m : Memory} (h : m.wf = true) : m = ofBytes (m.map Prod.snd) := by
  have h' : m.map Prod.fst = List.range m.length := by simpa [wf] using h
  rw [ofBytes, List.length_map, ← h', ← List.unzip_fst, ← List.unzip_snd, List.zip_unzip]

/-- The canonical form has its offsets strictly rising. -/
theorem rising_of_wf {m : Memory} (h : m.wf = true) : (m.map Prod.fst).Pairwise (· < ·) := by
  have h' : m.map Prod.fst = List.range m.length := by simpa [wf] using h
  rw [h']
  exact List.pairwise_lt_range

/-- A canonical input has a byte at an offset exactly when the offset is below its length. -/
theorem read_isSome_of_wf {m : Memory} (h : m.wf = true) (addr : Nat) : (m.read addr).isSome ↔ addr < m.size := by
  rw [eq_ofBytes_of_wf h]
  simp

@[simp] theorem wf_placeWord (m : Memory) (k : Nat) (w : Word) : (m.placeWord k w).wf = true :=
  wf_ofBytes _

@[simp] theorem size_placeWord (m : Memory) (k : Nat) (w : Word) : (m.placeWord k w).size = max m.size (2 * k + 2) := by
  simp [placeWord]

theorem read_placeWord (m : Memory) (k : Nat) (w : Word) (addr : Nat) :
    (m.placeWord k w).read addr =
      if addr < max m.size (2 * k + 2) then
        some (if addr = 2 * k then lowByte w else if addr = 2 * k + 1 then highByte w else (m.read addr).getD 0)
      else none := by
  by_cases h : addr < max m.size (2 * k + 2) <;> simp [placeWord, h]

theorem wordAt_of_reads {m : Memory} {k : Nat} {lo hi : Byte} (h0 : m.read (2 * k) = some lo) (h1 : m.read (2 * k + 1) = some hi) :
    m.wordAt k = .ok (wordOfBytes lo hi) := by
  simp [wordAt, h0, h1]

/-- Everything `wordAt` can answer with a word: the two bytes are there. -/
theorem reads_of_wordAt {m : Memory} {k : Nat} {w : Word} (h : m.wordAt k = .ok w) :
    ∃ lo hi, m.read (2 * k) = some lo ∧ m.read (2 * k + 1) = some hi ∧ w = wordOfBytes lo hi := by
  unfold wordAt at h
  split at h
  · next lo hi h0 h1 => exact ⟨lo, hi, h0, h1, by cases h; rfl⟩
  · cases h
  · cases h

/-- Every word of a canonical input can be assembled. -/
theorem exists_wordAt_of_wf {m : Memory} (h : m.wf = true) {k : Nat} (hk : k < m.wordCount) : ∃ w, m.wordAt k = .ok w := by
  rw [wordCount_eq] at hk
  obtain ⟨lo, h0⟩ := Option.isSome_iff_exists.mp ((read_isSome_of_wf h (2 * k)).mpr (by omega))
  obtain ⟨hi, h1⟩ := Option.isSome_iff_exists.mp ((read_isSome_of_wf h (2 * k + 1)).mpr (by omega))
  exact ⟨_, wordAt_of_reads h0 h1⟩

end Sys2Proof.Machine.Memory
end

