-- ==== Sys2Proof/Laws/State.lean ====
section
/-! SUPPORT. One lemma per field of State and named update, so that no proof unfolds an update. -/

namespace Sys2Proof.Machine.State

@[simp] theorem emitLine_mem (s : State) (l : Text) : (s.emitLine l).mem = s.mem := rfl
@[simp] theorem emitLine_k (s : State) (l : Text) : (s.emitLine l).k = s.k := rfl
@[simp] theorem emitLine_lines (s : State) (l : Text) : (s.emitLine l).lines = s.lines ++ [l] := rfl
@[simp] theorem emitLine_diags (s : State) (l : Text) : (s.emitLine l).diags = s.diags := rfl
@[simp] theorem emitLine_status (s : State) (l : Text) : (s.emitLine l).status = s.status := rfl
@[simp] theorem emitLine_errorPolicy (s : State) (l : Text) : (s.emitLine l).errorPolicy = s.errorPolicy := rfl
@[simp] theorem emitLine_trailingPolicy (s : State) (l : Text) : (s.emitLine l).trailingPolicy = s.trailingPolicy := rfl

@[simp] theorem emitDiag_mem (s : State) (d : Diag) : (s.emitDiag d).mem = s.mem := rfl
@[simp] theorem emitDiag_k (s : State) (d : Diag) : (s.emitDiag d).k = s.k := rfl
@[simp] theorem emitDiag_lines (s : State) (d : Diag) : (s.emitDiag d).lines = s.lines := rfl
@[simp] theorem emitDiag_diags (s : State) (d : Diag) : (s.emitDiag d).diags = s.diags ++ [d] := rfl
@[simp] theorem emitDiag_status (s : State) (d : Diag) : (s.emitDiag d).status = s.status := rfl
@[simp] theorem emitDiag_errorPolicy (s : State) (d : Diag) : (s.emitDiag d).errorPolicy = s.errorPolicy := rfl
@[simp] theorem emitDiag_trailingPolicy (s : State) (d : Diag) : (s.emitDiag d).trailingPolicy = s.trailingPolicy := rfl

@[simp] theorem nextWord_mem (s : State) : (s.nextWord).mem = s.mem := rfl
@[simp] theorem nextWord_k (s : State) : (s.nextWord).k = s.k + 1 := rfl
@[simp] theorem nextWord_lines (s : State) : (s.nextWord).lines = s.lines := rfl
@[simp] theorem nextWord_diags (s : State) : (s.nextWord).diags = s.diags := rfl
@[simp] theorem nextWord_status (s : State) : (s.nextWord).status = s.status := rfl
@[simp] theorem nextWord_errorPolicy (s : State) : (s.nextWord).errorPolicy = s.errorPolicy := rfl
@[simp] theorem nextWord_trailingPolicy (s : State) : (s.nextWord).trailingPolicy = s.trailingPolicy := rfl

@[simp] theorem setStatus_mem (s : State) (st : Status) : (s.setStatus st).mem = s.mem := rfl
@[simp] theorem setStatus_k (s : State) (st : Status) : (s.setStatus st).k = s.k := rfl
@[simp] theorem setStatus_lines (s : State) (st : Status) : (s.setStatus st).lines = s.lines := rfl
@[simp] theorem setStatus_diags (s : State) (st : Status) : (s.setStatus st).diags = s.diags := rfl
@[simp] theorem setStatus_status (s : State) (st : Status) : (s.setStatus st).status = st := rfl
@[simp] theorem setStatus_errorPolicy (s : State) (st : Status) : (s.setStatus st).errorPolicy = s.errorPolicy := rfl
@[simp] theorem setStatus_trailingPolicy (s : State) (st : Status) : (s.setStatus st).trailingPolicy = s.trailingPolicy := rfl

@[simp] theorem start_mem (bs : List Byte) (ep : ErrorPolicy) (tp : TrailingPolicy) : (start bs ep tp).mem = Memory.ofBytes bs := rfl
@[simp] theorem start_k (bs : List Byte) (ep : ErrorPolicy) (tp : TrailingPolicy) : (start bs ep tp).k = 0 := rfl
@[simp] theorem start_lines (bs : List Byte) (ep : ErrorPolicy) (tp : TrailingPolicy) : (start bs ep tp).lines = [] := rfl
@[simp] theorem start_diags (bs : List Byte) (ep : ErrorPolicy) (tp : TrailingPolicy) : (start bs ep tp).diags = [] := rfl
@[simp] theorem start_status (bs : List Byte) (ep : ErrorPolicy) (tp : TrailingPolicy) : (start bs ep tp).status = .running := rfl
@[simp] theorem start_errorPolicy (bs : List Byte) (ep : ErrorPolicy) (tp : TrailingPolicy) : (start bs ep tp).errorPolicy = ep := rfl
@[simp] theorem start_trailingPolicy (bs : List Byte) (ep : ErrorPolicy) (tp : TrailingPolicy) : (start bs ep tp).trailingPolicy = tp := rfl

@[simp] theorem withFetchWord_mem (s : State) (nbits w : Nat) : (s.withFetchWord nbits w).mem = s.mem.placeWord s.k (tableWord nbits w) := rfl
@[simp] theorem withFetchWord_k (s : State) (nbits w : Nat) : (s.withFetchWord nbits w).k = s.k := rfl
@[simp] theorem withFetchWord_lines (s : State) (nbits w : Nat) : (s.withFetchWord nbits w).lines = s.lines := rfl
@[simp] theorem withFetchWord_diags (s : State) (nbits w : Nat) : (s.withFetchWord nbits w).diags = s.diags := rfl
@[simp] theorem withFetchWord_status (s : State) (nbits w : Nat) : (s.withFetchWord nbits w).status = .running := rfl
@[simp] theorem withFetchWord_errorPolicy (s : State) (nbits w : Nat) : (s.withFetchWord nbits w).errorPolicy = s.errorPolicy := rfl
@[simp] theorem withFetchWord_trailingPolicy (s : State) (nbits w : Nat) : (s.withFetchWord nbits w).trailingPolicy = s.trailingPolicy := rfl

/-- The memory after reset is in canonical form. -/
@[simp] theorem reset_mem_wf : State.reset.mem.wf = true := rfl

end Sys2Proof.Machine.State
end

