-- ==== Sys2Proof/Laws/Ops.lean ====
section
/-! SUPPORT. What each shared operation of the host can do, said once. -/

namespace Sys2Proof.Machine

@[simp] theorem exec_mov (mod : BitVec 2) (reg r_m : Sel) (d w : Bit) (s : State) :
    exec (.mov mod reg r_m d w) s =
      .next (emitResult .mov (route d (regIdOf w r_m) (regIdOf w reg)).1 (route d (regIdOf w r_m) (regIdOf w reg)).2 s) := rfl

theorem emitResult_eq (m : Mnemonic) (dst src : RegId) (s : State) :
    emitResult m dst src s = { s with lines := s.lines ++ [render m dst src], k := s.k + 1 } := rfl

theorem takeUnknownOpcode_skip (v : Opcode) {s : State} (h : s.errorPolicy = .skip) :
    takeUnknownOpcode v s = { s with diags := s.diags ++ [.warn (.unknownOpcode v s.k)], k := s.k + 1 } := by
  cases s
  cases h
  rfl

theorem takeUnknownOpcode_abort (v : Opcode) {s : State} (h : s.errorPolicy = .abort) :
    takeUnknownOpcode v s = { s with diags := s.diags ++ [.error (.unknownOpcode v s.k)], status := .aborted v } := by
  cases s
  cases h
  rfl

theorem takeTrailingByte_warn (b : Byte) {s : State} (h : s.trailingPolicy = .warn) :
    takeTrailingByte b s = { s with diags := s.diags ++ [.warn (.trailingByte b)], status := .done } := by
  cases s
  cases h
  rfl

theorem takeTrailingByte_reject (b : Byte) {s : State} (h : s.trailingPolicy = .reject) :
    takeTrailingByte b s = { s with diags := s.diags ++ [.error (.trailingByte b)], status := .rejected b } := by
  cases s
  cases h
  rfl

/-- Everything the end of the input can answer with a next state. -/
theorem endOfInput_cases {s t : State} (h : endOfInput s = .next t) :
    (s.mem.size % 2 = 0 ∧ t = s.setStatus .done) ∨
      ∃ b, s.mem.size % 2 = 1 ∧ s.mem.read (s.mem.size - 1) = some b ∧ t = takeTrailingByte b s := by
  unfold endOfInput at h
  split at h
  · next he => cases h; exact .inl ⟨he, rfl⟩
  · next ho =>
    split at h
    · next b hb => cases h; exact .inr ⟨b, by omega, hb, rfl⟩
    · cases h

/-- What the host does with a word, by the core's result. -/
theorem runWord_eq (w : Word) (s : State) :
    runWord w s = .next (match coreResult w with
      | .ok m dst src => emitResult m dst src s
      | .unknownOpcode v => takeUnknownOpcode v s) := by
  unfold runWord
  cases hd : decodeWord w with
  | ok i =>
    cases i
    simp only [exec_mov, coreResult_of_decodeWord hd]
  | error v => simp only [decodeWord_error_iff.mp hd]

end Sys2Proof.Machine
end

