-- ==== Sys2Proof/Laws/PerInstr.lean ====
section
/-! SUPPORT. Facts about the instructions as syntax, one lemma per constructor. -/

namespace Sys2Proof.Laws.TableMatch

/-- The instruction's word matches its row of the opcode table: `word & 0x00FC == 0x0088` (30_encoding.md R55). -/
def Statement (i : Instr) : Prop := encodeWord i &&& 0x00FC#16 = 0x0088#16

theorem mov (mod : BitVec 2) (reg r_m : Sel) (d w : Bit) : Statement (.mov mod reg r_m d w) := by
  unfold Statement encodeWord encodeRecord Instr.record
  ext i hi
  interval_cases i <;> simp [Config.opcodeMov]

end Sys2Proof.Laws.TableMatch
end

