-- ==== Sys2Proof/Laws/Step.lean ====
section
/-! SUPPORT. What a step can do, said once; later proofs cite it and do not unfold the step. -/

namespace Sys2Proof.Machine

theorem step_running {s : State} (h : s.status = .running) : step s = runningStep s := by
  simp [step, hostStep, h]

theorem runningStep_word {s : State} (hk : s.k < s.mem.wordCount) {w : Word} (hw : s.mem.wordAt s.k = .ok w) :
    runningStep s = runWord w s := by
  simp [runningStep, hk, hw]

theorem runningStep_end {s : State} (hk : s.k = s.mem.wordCount) : runningStep s = endOfInput s := by
  simp [runningStep, hk]

/-- Every step that answers a next state is one of four: a line, a rejected opcode, an even end, an odd end (60_exceptions.md R143 to R146). -/
theorem step_cases {s t : State} (h : step s = .next t) :
    s.status = .running ∧
      ((∃ w m dst src, s.k < s.mem.wordCount ∧ s.mem.wordAt s.k = .ok w ∧ coreResult w = .ok m dst src ∧ t = emitResult m dst src s) ∨
       (∃ w v, s.k < s.mem.wordCount ∧ s.mem.wordAt s.k = .ok w ∧ coreResult w = .unknownOpcode v ∧ t = takeUnknownOpcode v s) ∨
       (s.k = s.mem.wordCount ∧ s.mem.size % 2 = 0 ∧ t = s.setStatus .done) ∨
       (∃ b, s.k = s.mem.wordCount ∧ s.mem.size % 2 = 1 ∧ s.mem.read (s.mem.size - 1) = some b ∧ t = takeTrailingByte b s)) := by
  cases hs : s.status with
  | running =>
    refine ⟨rfl, ?_⟩
    rw [step_running hs] at h
    unfold runningStep at h
    split at h
    · next hk =>
      split at h
      · next w hw =>
        rw [runWord_eq] at h
        cases hc : coreResult w with
        | ok m dst src =>
          rw [hc] at h
          cases h
          exact .inl ⟨w, m, dst, src, hk, hw, hc, rfl⟩
        | unknownOpcode v =>
          rw [hc] at h
          cases h
          exact .inr (.inl ⟨w, v, hk, hw, hc, rfl⟩)
      · cases h
    · split at h
      · next hk =>
        rcases endOfInput_cases h with ⟨he, ht⟩ | ⟨b, ho, hb, ht⟩
        · exact .inr (.inr (.inl ⟨hk, he, ht⟩))
        · exact .inr (.inr (.inr ⟨b, hk, ho, hb, ht⟩))
      · cases h
  | done => simp [step, hostStep, hs] at h
  | aborted v => simp [step, hostStep, hs] at h
  | rejected b => simp [step, hostStep, hs] at h

end Sys2Proof.Machine
end

