-- ==== Sys2Proof/Tests/Slice0.lean ====
section
/-! SUPPORT. The model's own tests: words and lines of the spec's vectors (95_test_vectors.md), the well-formedness smoke, and for every statement with hypotheses a state that meets them all. -/

namespace Sys2Proof.Tests

open Sys2Proof.Machine Sys2Proof.Safety

/-! ## Well-formedness smoke -/

/-- The one check refuses a record whose opcode is one below 34 (95_test_vectors.md 2.1, word 0xD987). -/
theorem test_wellFormed_refuses_opcode_33 :
    Record.wellFormed { opcode := 33, direction := 1, width := 1, reg := 0b011, r_m := 0b001, mod := 0b11 } = false := by decide

/-- And one whose opcode is one above (word 0xD98C). -/
theorem test_wellFormed_refuses_opcode_35 : (decodeRecord 0xD98C).wellFormed = false := by decide

/-- And takes the record of opcode 34 (95_test_vectors.md V1). -/
theorem test_wellFormed_takes_opcode_34 : (decodeRecord 0xD989).wellFormed = true := by decide

/-! ## Decoding: `mod reg r_m opcode d w`, bit 15 first (30_encoding.md R51), from 95_test_vectors.md V1, V2 and 2.1 -/

theorem test_decode_V1 : decodeWord 0b11_011_001_100010_0_1 = .ok (.mov 0b11 0b011 0b001 0 1) := by decide

theorem test_decode_mod1 : decodeWord 0b01_001_111_100010_1_0 = .ok (.mov 0b01 0b001 0b111 1 0) := by decide

theorem test_decode_bytes_V2 : decode [0x8B, 0xCB, 0x00] = .ok (.mov 0b11 0b001 0b011 1 1, [0x00]) := by decide

theorem test_decode_rejects_0x3AC1 : decode [0xC1, 0x3A] = .error (.unknownOpcode 48) := by decide

theorem test_decode_rejects_one_byte : decode [0x89] = .error (.trailingByte 0x89) := by decide

theorem test_decode_rejects_no_byte : decode [] = .error .noBytes := by decide

theorem test_table_word : decodeTableWord 16 0xD989 = some (.mov 0b11 0b011 0b001 0 1) := by decide

theorem test_encode_V2 : encode (.mov 0b11 0b001 0b011 1 1) = [0x8B, 0xCB] := by decide

/-! ## The decode result and the line (95_test_vectors.md 2.5) -/

theorem test_result_bp_sp : coreResult 0xE589 = .ok .mov 11 9 := by decide

theorem test_line_ah_ch : lineOf 0xE58A = some "mov ah, ch\n".toList := by decide

/-- 95_test_vectors.md V7. -/
theorem test_line_bytes_V7 :
    lineBytes "mov cx, bx\n".toList = [0x6D, 0x6F, 0x76, 0x20, 0x63, 0x78, 0x2C, 0x20, 0x62, 0x78, 0x0A] := by decide

/-- 95_test_vectors.md 2.5, ports of 0xFFFF: driven, with no meaning. -/
theorem test_ports_0xFFFF :
    (decodeCore 0xFFFF).operands = { dst := { regId := 15, name0 := 0x64, name1 := 0x69 }, src := { regId := 15, name0 := 0x64, name1 := 0x69 } } := by decide

theorem test_cause_codes (v : Opcode) (k : Nat) (b : Byte) : (Cause.unknownOpcode v k).code = 1 ∧ (Cause.trailingByte b).code = 2 := ⟨rfl, rfl⟩

/-! ## Steps, on the programs of 95_test_vectors.md section 3 -/

/-- P2, whose word 1 is not `mov`, at word `k`. -/
def unknownAt (k : Nat) (ep : ErrorPolicy) : State := { State.start [0x89, 0xD9, 0x00, 0x00, 0x8B, 0xCB] ep .warn with k := k }

/-- P3, of odd length, at word `k`. -/
def oddAt (k : Nat) (tp : TrailingPolicy) : State := { State.start [0x8A, 0xC8, 0x88, 0xC0, 0x89] .skip tp with k := k }

theorem test_mov_emits_its_line : step (oddAt 0 .warn) = .next { oddAt 1 .warn with lines := ["mov cl, al\n".toList] } := by rfl

theorem test_skip_warns : step (unknownAt 1 .skip) = .next { unknownAt 2 .skip with diags := [.warn (.unknownOpcode 0 1)] } := by rfl

theorem test_abort_ends :
    step (unknownAt 1 .abort) = .next { unknownAt 1 .abort with diags := [.error (.unknownOpcode 0 1)], status := .aborted 0 } := by rfl

theorem test_trailing_rejected :
    step (oddAt 2 .reject) = .next { oddAt 2 .reject with diags := [.error (.trailingByte 0x89)], status := .rejected 0x89 } := by rfl

theorem test_first_instruction_after_reset :
    step (State.reset.withFetchWord 16 0xD989) =
      .next { State.reset.withFetchWord 16 0xD989 with lines := ["mov cx, bx\n".toList], k := 1 } := by rfl

/-- The report of P6 under `skip` and `reject`. -/
theorem test_report_P6 :
    fileReport [0x87, 0xD9, 0x89, 0xD9, 0x00] .skip .reject =
      { lines := ["mov cx, bx\n".toList], diags := [.warn (.unknownOpcode 33 0), .error (.trailingByte 0x00)], status := .rejected 0x00 } := by decide

/-! ## Witnesses: states and operands that meet the hypotheses of the statements, clause by clause -/

/-- P2's states are sound at its first, middle and last position. -/
theorem inv_unknownAt {k : Nat} (hk : k ≤ 3) (ep : ErrorPolicy) : Inv (unknownAt k ep) where
  canonical := rfl
  position := by simpa [unknownAt] using hk
  done h := by cases h
  aborted v h := by cases h
  rejected b h := by cases h

theorem witness_MovWordsAreTheMaskedOnes : ¬ (0xD987 : Word) &&& 0x00FC = 0x0088 ∧ ¬ (0xD98C : Word) &&& 0x00FC = 0x0088 := by decide

theorem witness_DecodeAndEncodeAgree :
    decodeWord 0xD989 = .ok (.mov 3 3 1 0 1) ∧ decode [0x89, 0xD9, 0x07] = .ok (.mov 3 3 1 0 1, [0x07]) := by decide

theorem witness_SameLineExactlyForSwappedForms :
    lineOf (encodeWord (.mov 3 3 1 0 1)) = lineOf (encodeWord (.mov 0 3 1 0 1)) ∧
    lineOf (encodeWord (.mov 3 3 1 0 1)) = lineOf (encodeWord (.mov 3 1 3 1 1)) := by decide

theorem witness_MnemonicOutputs : (34 : Opcode) = 34 ∧ (33 : Opcode) ≠ 34 ∧ (35 : Opcode) ≠ 34 := by decide

theorem witness_RegisterNames : regName 3 = regName 3 := rfl

theorem witness_OperandRoles :
    (decodeRecord 0xD989).direction = 0 ∧ (decodeRecord 0xD98B).direction ≠ 0 ∧ (decodeRecord 0xC089).reg = (decodeRecord 0xC089).r_m := by decide

theorem witness_DirectionInversion : coreResult 0xD989 = .ok .mov 3 7 := by decide

theorem witness_LookupFailureIsAValue : (decodeRecord 0x0088).opcode = 34 ∧ (decodeRecord 0x00FC).opcode ≠ 34 := by decide

theorem witness_ModIsNeverRead : (0x1989 : Word) ≠ 0xD989 ∧ (0x1989 : Word) &&& 0x3FFF = 0xD989 &&& 0x3FFF := by decide

theorem witness_PortsCarryTheResult : coreResult 0xE588 = .ok .mov 10 8 ∧ coreResult 0xFFFF = .unknownOpcode 63 := by decide

theorem witness_MovDecodeResult :
    (7 : Sel) = 7 ∧ (0 : Bit) = 0 ∧ (1 : Bit) = 1 ∧ (decodeRecord 0xD989).opcode = 34 := by decide

theorem witness_MovFrame : ∃ t, exec (.mov 3 3 1 0 1) (unknownAt 0 .skip) = .next t := ⟨_, rfl⟩

/-- The last word of P3, at the boundary of its input. -/
theorem witness_WordsAreLittleEndian :
    (oddAt 1 .warn).mem.read (2 * 1) = some 0x88 ∧ (oddAt 1 .warn).mem.read (2 * 1 + 1) = some 0xC0 := by decide

theorem witness_InputIsCutIntoWords : 0 < ([0x89, 0xD9] : List Byte).length / 2 ∧ 1 < ([0x8A, 0xC8, 0x88, 0xC0, 0x89] : List Byte).length / 2 := by decide

theorem witness_StepRunsTheDecodedInstruction :
    (unknownAt 2 .abort).status = .running ∧ (unknownAt 2 .abort).k < (unknownAt 2 .abort).mem.wordCount ∧
    (unknownAt 2 .abort).mem.read (2 * 2) = some 0x8B ∧ (unknownAt 2 .abort).mem.read (2 * 2 + 1) = some 0xCB ∧
    decode [0x8B, 0xCB] = .ok (.mov 3 1 3 1 1, []) := by decide

theorem witness_OkWordEmitsItsLine :
    (unknownAt 2 .skip).status = .running ∧ (unknownAt 2 .skip).k < (unknownAt 2 .skip).mem.wordCount ∧
    (unknownAt 2 .skip).mem.wordAt 2 = .ok 0xCB8B ∧ coreResult 0xCB8B = .ok .mov 3 7 := by decide

theorem witness_UnknownOpcodeFollowsThePolicy (ep : ErrorPolicy) :
    (unknownAt 1 ep).status = .running ∧ (unknownAt 1 ep).k < (unknownAt 1 ep).mem.wordCount ∧
    (unknownAt 1 ep).mem.wordAt 1 = .ok 0x0000 ∧ coreResult 0x0000 = .unknownOpcode 0 ∧ (unknownAt 1 ep).errorPolicy = ep := by
  cases ep <;> decide

theorem witness_EvenInputEndsDone :
    (unknownAt 3 .skip).status = .running ∧ (unknownAt 3 .skip).k = (unknownAt 3 .skip).mem.wordCount ∧
    (unknownAt 3 .skip).mem.size % 2 = 0 := by decide

theorem witness_OddInputReportsTheTrailingByte (tp : TrailingPolicy) :
    (oddAt 2 tp).status = .running ∧ (oddAt 2 tp).k = (oddAt 2 tp).mem.wordCount ∧ (oddAt 2 tp).mem.size % 2 = 1 ∧
    (oddAt 2 tp).mem.read ((oddAt 2 tp).mem.size - 1) = some 0x89 ∧ (oddAt 2 tp).trailingPolicy = tp := by
  cases tp <;> decide

/-- P2 at its end under both policies: sound and running. -/
theorem witness_StepAnswersExactlyWhileRunning :
    Inv (unknownAt 3 .skip) ∧ (unknownAt 3 .skip).status = .running ∧ Ended ((unknownAt 3 .skip).setStatus .done) :=
  ⟨inv_unknownAt (by decide) _, rfl, by simp [Ended]⟩

/-- A step of each of the three kinds: a line, a diagnostic, an end. -/
theorem witness_StepChangesAtMostOneLog :
    (∃ t, step (unknownAt 0 .skip) = .next t) ∧ (∃ t, step (unknownAt 1 .skip) = .next t) ∧ (∃ t, step (unknownAt 1 .abort) = .next t) :=
  ⟨⟨_, rfl⟩, ⟨_, rfl⟩, ⟨_, rfl⟩⟩

theorem witness_RunNeverWritesItsInput : ∃ t : State, Sys2Proof.core.run 2 (unknownAt 0 .skip) = .next t := ⟨_, rfl⟩

/-- Two inputs that agree in word 0 only. -/
theorem witness_StepReadsOnlyItsOwnWord :
    ∃ s₁ s₂ : State, Inv s₁ ∧ Inv s₂ ∧ s₁.mem ≠ s₂.mem ∧ s₁.status = .running ∧ s₂.status = .running ∧
      s₁.k < s₁.mem.wordCount ∧ s₂.k < s₂.mem.wordCount ∧ s₁.k = s₂.k ∧ s₁.lines = s₂.lines ∧ s₁.diags = s₂.diags ∧
      s₁.errorPolicy = s₂.errorPolicy ∧ s₁.mem.read (2 * s₁.k) = s₂.mem.read (2 * s₂.k) ∧
      s₁.mem.read (2 * s₁.k + 1) = s₂.mem.read (2 * s₂.k + 1) :=
  ⟨unknownAt 0 .skip, { unknownAt 0 .skip with mem := Memory.ofBytes [0x89, 0xD9] }, inv_unknownAt (by decide) _,
    ⟨rfl, by decide, fun h => (by cases h), fun _ h => (by cases h), fun _ h => (by cases h)⟩, by decide, rfl, rfl, by decide, by decide,
    rfl, rfl, rfl, rfl, by decide, by decide⟩

theorem witness_PlacedWordIsTheNextRun : decodeTableWord 16 0x0088 = some (.mov 0 0 0 0 0) := by decide

/-- A sound state with a step, which also has both logs in order. -/
theorem witness_StepKeepsSoundness :
    Inv (unknownAt 0 .abort) ∧ OutputInOrder (unknownAt 0 .abort) ∧ ∃ t, step (unknownAt 0 .abort) = .next t :=
  ⟨inv_unknownAt (by decide) _, ⟨rfl, by simp [DiagsOrdered, unknownAt]⟩, ⟨_, rfl⟩⟩

/-- The same at an unknown opcode with a line and no diagnostic before it: P2 after its first word. -/
theorem witness_OutputFollowsInputOrder :
    ∃ s : State, Inv s ∧ OutputInOrder s ∧ s.lines ≠ [] ∧ ∃ t, step s = .next t :=
  ⟨{ unknownAt 1 .skip with lines := ["mov cx, bx\n".toList] },
    ⟨rfl, by decide, fun h => (by cases h), fun _ h => (by cases h), fun _ h => (by cases h)⟩,
    ⟨(by decide : ["mov cx, bx\n".toList] = ([0xD989] : List Word).filterMap lineOf), by simp [DiagsOrdered, unknownAt]⟩,
    by decide, ⟨_, rfl⟩⟩

theorem witness_EveryRunEnds : Inv (unknownAt 0 .skip) ∧ (unknownAt 0 .skip).status = .running := ⟨inv_unknownAt (by decide) _, rfl⟩

end Sys2Proof.Tests
end

/-! The words of an input (20_memory.md R30): how many there are, and which bytes each is made of. -/

namespace Sys2Proof.Safety

open Sys2Proof.Machine

/-- Every instruction takes the bytes of one word. -/
@[simp] theorem length_encode (i : Instr) : (encode i).length = Config.instrBytes := rfl

@[simp] theorem length_wordsOf (bs : List Byte) : (wordsOf bs).length = bs.length / 2 := by
  induction bs using wordsOf.induct with
  | case1 lo hi rest ih =>
    simp only [wordsOf, List.length_cons, ih]
    omega
  | case2 b => simp [wordsOf]
  | case3 => simp [wordsOf]

/-- Word `k` of the list is assembled from bytes `2k` and `2k + 1`. -/
theorem getElem?_wordsOf_of_bytes {bs : List Byte} {k : Nat} {lo hi : Byte}
    (hlo : bs[2 * k]? = some lo) (hhi : bs[2 * k + 1]? = some hi) :
    (wordsOf bs)[k]? = some (wordOfBytes lo hi) := by
  induction bs using wordsOf.induct generalizing k with
  | case1 a b rest ih =>
    cases k with
    | zero =>
      cases hlo
      cases hhi
      rfl
    | succ k =>
      simp only [wordsOf, List.getElem?_cons_succ]
      exact ih (by simpa [Nat.mul_add] using hlo) (by simpa [Nat.mul_add] using hhi)
  | case2 b => simp at hhi
  | case3 => simp at hhi

/-- What a canonical input answers as its `k`-th word is the `k`-th of the list of words. -/
theorem getElem?_wordsOf_of_wordAt {m : Memory} (hwf : m.wf = true) {k : Nat} {w : Word} (hw : m.wordAt k = .ok w) :
    (wordsOf (m.map Prod.snd))[k]? = some w := by
  obtain ⟨lo, hi, hlo, hhi, rfl⟩ := Memory.reads_of_wordAt hw
  rw [Memory.eq_ofBytes_of_wf hwf, Memory.read_ofBytes] at hlo hhi
  exact getElem?_wordsOf_of_bytes hlo hhi

/-- The words before `k`, when the run goes from word `k` to word `k + 1` of the same input. -/
theorem wordsBefore_of_next_word {s t : State} {w : Word} (hwf : s.mem.wf = true) (hw : s.mem.wordAt s.k = .ok w)
    (hmem : t.mem = s.mem) (hk : t.k = s.k + 1) : wordsBefore t = wordsBefore s ++ [w] := by
  rw [wordsBefore, wordsBefore, hmem, hk, List.take_add_one, getElem?_wordsOf_of_wordAt hwf hw]
  rfl

theorem lineOf_of_ok {w : Word} {m : Mnemonic} {dst src : RegId} (h : coreResult w = .ok m dst src) :
    lineOf w = some (render m dst src) := by
  simp [lineOf, h]

theorem lineOf_of_unknown {w : Word} {v : Opcode} (h : coreResult w = .unknownOpcode v) : lineOf w = none := by
  simp [lineOf, h]

end Sys2Proof.Safety

/-! The order of the lines (20_memory.md R39): kept when a word is passed with its line, if it has one, and when the run ends. -/

namespace Sys2Proof.Safety

open Sys2Proof.Machine

theorem LinesExplained.next_word {s t : State} {w : Word} (h : LinesExplained s) (hwf : s.mem.wf = true)
    (hw : s.mem.wordAt s.k = .ok w) (hmem : t.mem = s.mem) (hk : t.k = s.k + 1)
    (hlines : t.lines = s.lines ++ (lineOf w).toList) : LinesExplained t := by
  unfold LinesExplained at h ⊢
  rw [wordsBefore_of_next_word hwf hw hmem hk, List.filterMap_append, ← h, hlines]
  cases hl : lineOf w <;> simp [hl]

theorem LinesExplained.same_word {s t : State} (h : LinesExplained s) (hmem : t.mem = s.mem) (hk : t.k = s.k)
    (hlines : t.lines = s.lines) : LinesExplained t := by
  unfold LinesExplained wordsBefore at h ⊢
  rw [hlines, hmem, hk, h]

end Sys2Proof.Safety

/-! The order of the diagnostics (20_memory.md R39), through one bound on the word indices that serves both running and ended states. -/

namespace Sys2Proof.Safety

open Sys2Proof.Machine

/-- The diagnostics about words stand in strictly rising word order, and all are about words below `n`. -/
def RisingBelow (ds : List Diag) (n : Nat) : Prop :=
  (ds.filterMap wordIndexOf).Pairwise (· < ·) ∧ ∀ i ∈ ds.filterMap wordIndexOf, i < n

theorem DiagsOrdered.risingBelow {s : State} (h : DiagsOrdered s) (hs : s.status = .running) : RisingBelow s.diags s.k := by
  simpa [DiagsOrdered, RisingBelow, hs] using h

/-- The bound `k` is enough in every state. -/
theorem RisingBelow.diagsOrdered {s : State} (h : RisingBelow s.diags s.k) : DiagsOrdered s :=
  ⟨h.1, fun i hi => .inl (h.2 i hi)⟩

/-- A run that has ended may also have a diagnostic about the word it stopped at. -/
theorem RisingBelow.diagsOrdered_of_ended {s : State} (h : RisingBelow s.diags (s.k + 1)) (hs : Ended s) : DiagsOrdered s :=
  ⟨h.1, fun i hi => (Nat.lt_succ_iff_lt_or_eq.mp (h.2 i hi)).imp_right fun heq => ⟨heq, hs⟩⟩

theorem RisingBelow.mono {ds : List Diag} {n n' : Nat} (h : RisingBelow ds n) (hn : n ≤ n') : RisingBelow ds n' :=
  ⟨h.1, fun i hi => Nat.lt_of_lt_of_le (h.2 i hi) hn⟩

/-- A diagnostic about the first word not yet covered keeps the order. -/
theorem RisingBelow.append_word {ds : List Diag} {n : Nat} {d : Diag} (h : RisingBelow ds n) (hd : wordIndexOf d = some n) :
    RisingBelow (ds ++ [d]) (n + 1) := by
  obtain ⟨hrising, hbelow⟩ := h
  have happ : (ds ++ [d]).filterMap wordIndexOf = ds.filterMap wordIndexOf ++ [n] := by simp [hd]
  rw [RisingBelow, happ]
  refine ⟨List.pairwise_append.mpr ⟨hrising, List.pairwise_singleton _ _, ?_⟩, fun i hi => ?_⟩
  · intro i hi j hj
    rw [List.mem_singleton.mp hj]
    exact hbelow i hi
  · rcases List.mem_append.mp hi with hi | hi
    · exact Nat.lt_succ_of_lt (hbelow i hi)
    · rw [List.mem_singleton.mp hi]
      exact Nat.lt_succ_self n

/-- A diagnostic about no word does not count. -/
theorem RisingBelow.append_other {ds : List Diag} {n : Nat} {d : Diag} (h : RisingBelow ds n) (hd : wordIndexOf d = none) :
    RisingBelow (ds ++ [d]) n := by
  have happ : (ds ++ [d]).filterMap wordIndexOf = ds.filterMap wordIndexOf := by simp [hd]
  rw [RisingBelow, happ]
  exact h

end Sys2Proof.Safety

/-! Each thing a step can do keeps both logs in the order of the input (60_exceptions.md R143 to R146). -/

namespace Sys2Proof.Safety

open Sys2Proof.Machine

theorem outputInOrder_start (bs : List Byte) (ep : ErrorPolicy) (tp : TrailingPolicy) : OutputInOrder (State.start bs ep tp) :=
  ⟨by simp [LinesExplained, wordsBefore], by simp [DiagsOrdered]⟩

variable {s : State} {w : Word}

theorem outputInOrder_emitResult {m : Mnemonic} {dst src : RegId} (h : OutputInOrder s) (hs : s.status = .running)
    (hwf : s.mem.wf = true) (hw : s.mem.wordAt s.k = .ok w) (hc : coreResult w = .ok m dst src) :
    OutputInOrder (emitResult m dst src s) := by
  obtain ⟨hlines, hdiags⟩ := h
  have hbelow := hdiags.risingBelow hs
  rw [emitResult_eq]
  exact ⟨hlines.next_word hwf hw rfl rfl (by simp [lineOf_of_ok hc]),
    (hbelow.mono (Nat.le_succ s.k)).diagsOrdered⟩

theorem outputInOrder_takeUnknownOpcode {v : Opcode} (h : OutputInOrder s) (hs : s.status = .running)
    (hwf : s.mem.wf = true) (hw : s.mem.wordAt s.k = .ok w) (hc : coreResult w = .unknownOpcode v) :
    OutputInOrder (takeUnknownOpcode v s) := by
  obtain ⟨hlines, hdiags⟩ := h
  have hbelow := hdiags.risingBelow hs
  cases hp : s.errorPolicy with
  | skip =>
    rw [takeUnknownOpcode_skip v hp]
    exact ⟨hlines.next_word hwf hw rfl rfl (by simp [lineOf_of_unknown hc]),
      (hbelow.append_word rfl).diagsOrdered⟩
  | abort =>
    rw [takeUnknownOpcode_abort v hp]
    exact ⟨hlines.same_word rfl rfl rfl, (hbelow.append_word rfl).diagsOrdered_of_ended Status.noConfusion⟩

theorem outputInOrder_done (h : OutputInOrder s) (hs : s.status = .running) : OutputInOrder (s.setStatus .done) := by
  obtain ⟨hlines, hdiags⟩ := h
  have hbelow := hdiags.risingBelow hs
  exact ⟨hlines.same_word rfl rfl rfl,
    RisingBelow.diagsOrdered_of_ended (s := s.setStatus .done) (hbelow.mono (Nat.le_succ s.k)) Status.noConfusion⟩

theorem outputInOrder_takeTrailingByte (b : Byte) (h : OutputInOrder s) (hs : s.status = .running) :
    OutputInOrder (takeTrailingByte b s) := by
  obtain ⟨hlines, hdiags⟩ := h
  have hbelow := (hdiags.risingBelow hs).mono (Nat.le_succ s.k)
  cases hp : s.trailingPolicy with
  | warn =>
    rw [takeTrailingByte_warn b hp]
    exact ⟨hlines.same_word rfl rfl rfl, (hbelow.append_other rfl).diagsOrdered_of_ended Status.noConfusion⟩
  | reject =>
    rw [takeTrailingByte_reject b hp]
    exact ⟨hlines.same_word rfl rfl rfl, (hbelow.append_other rfl).diagsOrdered_of_ended Status.noConfusion⟩

theorem step_keeps_outputInOrder {t : State} (hinv : Inv s) (h : OutputInOrder s) (ht : step s = .next t) :
    OutputInOrder t := by
  obtain ⟨hs, ⟨w, m, dst, src, -, hw, hc, rfl⟩ | ⟨w, v, -, hw, hc, rfl⟩ | ⟨-, -, rfl⟩ | ⟨b, -, -, -, rfl⟩⟩ := step_cases ht
  · exact outputInOrder_emitResult h hs hinv.canonical hw hc
  · exact outputInOrder_takeUnknownOpcode h hs hinv.canonical hw hc
  · exact outputInOrder_done h hs
  · exact outputInOrder_takeTrailingByte b h hs

end Sys2Proof.Safety

/-! The obligations of 20_memory.md, settled. -/

namespace Sys2Proof.Proofs

open Sys2Proof.Machine Sys2Proof.Safety

/-- Settles O37: the order holds at the start, and each of the four things a step can do keeps it. -/
theorem outputFollowsInputOrder : Obligations.OutputFollowsInputOrder :=
  ⟨outputInOrder_start, fun _ _ => step_keeps_outputInOrder⟩

/-- Settles O22: the bytes are there because `2k + 1` is below the length, and both readings of word `k` take just these two. -/
theorem inputIsCutIntoWords : Obligations.InputIsCutIntoWords := by
  refine ⟨fun bs => ⟨Memory.wordCount_ofBytes bs, length_wordsOf bs, fun k hk => ?_⟩, length_encode⟩
  have hlo : bs[2 * k]? = some bs[2 * k] := List.getElem?_eq_getElem (by omega)
  have hhi : bs[2 * k + 1]? = some bs[2 * k + 1] := List.getElem?_eq_getElem (by omega)
  exact ⟨bs[2 * k], bs[2 * k + 1], hlo, hhi,
    Memory.wordAt_of_reads (by rw [Memory.read_ofBytes, hlo]) (by rw [Memory.read_ofBytes, hhi]),
    getElem?_wordsOf_of_bytes hlo hhi⟩

end Sys2Proof.Proofs

/-! The fields of a word as numbers, and the fields of an encoded record (40_bitfield_decoder.md R71, R75). -/

namespace Sys2Proof

/-- Cutting `n` bits out from bit `start` is a shift and a mask of the number. -/
theorem toNat_extractLsb'_eq_shift_mask {m : Nat} (x : BitVec m) (start n : Nat) :
    (x.extractLsb' start n).toNat = (x.toNat >>> start) &&& (2 ^ n - 1) := by
  rw [BitVec.extractLsb'_toNat, Nat.and_two_pow_sub_one_eq_mod]

variable {n : Nat} (x : BitVec n) (low : Nat)

/-- A field placed at bit `low` of a word is what is cut out there. -/
theorem extractLsb'_placed_same (hfits : low + n ≤ 16) :
    (x.setWidth 16 <<< low).extractLsb' low n = x := by
  ext i hi
  have hword : low + i < 16 := by omega
  simp [hword, BitVec.getLsbD_eq_getElem hi]

/-- A field placed at bit `low` of a word leaves no bit in a range beside its own. -/
theorem extractLsb'_placed_disjoint {start len : Nat} (hdisjoint : start + len ≤ low ∨ low + n ≤ start) :
    (x.setWidth 16 <<< low).extractLsb' start len = 0#len := by
  ext i hi
  simp only [BitVec.getElem_extractLsb', BitVec.getLsbD_shiftLeft, BitVec.getLsbD_setWidth, BitVec.getElem_zero]
  rcases hdisjoint with hbelow | habove
  · have hi' : start + i < low := by omega
    simp [hi']
  · have hi' : n ≤ start + i - low := by omega
    simp [BitVec.getLsbD_of_ge x _ hi']

/-- Decoding undoes encoding: each field is cut out where it was placed, and the other five have no bit there. -/
@[simp] theorem decodeRecord_encodeRecord (f : Record) : decodeRecord (encodeRecord f) = f := by
  have hwidth : f.width.setWidth 16 = f.width.setWidth 16 <<< 0 := (BitVec.shiftLeft_zero _).symm
  rw [encodeRecord, hwidth, decodeRecord]
  simp [BitVec.extractLsb'_or, extractLsb'_placed_same, extractLsb'_placed_disjoint, -BitVec.shiftLeft_zero]

end Sys2Proof

/-! The obligation of 40_bitfield_decoder.md, settled. -/

namespace Sys2Proof.Proofs

/-- Settles O1: each field is cut out of the word, and the word of a given tuple of fields is its encoding. -/
theorem fieldsByShiftAndMask : Obligations.FieldsByShiftAndMask := by
  refine ⟨fun w => ?_, by decide, by decide, by decide, fun f => ⟨encodeRecord f, decodeRecord_encodeRecord f⟩⟩
  exact ⟨toNat_extractLsb'_eq_shift_mask w 0 1, toNat_extractLsb'_eq_shift_mask w 1 1,
    toNat_extractLsb'_eq_shift_mask w 2 6, toNat_extractLsb'_eq_shift_mask w 8 3,
    toNat_extractLsb'_eq_shift_mask w 11 3, toNat_extractLsb'_eq_shift_mask w 14 2⟩

end Sys2Proof.Proofs

/-! The register identity, the register names and the two lookups (41_register_name_lut.md R110 to R120). -/

namespace Sys2Proof.Machine

/-- The width bit stands below the selector, so the composite index is a sum. -/
@[simp] theorem toNat_regIdOf (w : Bit) (sel : Sel) : (regIdOf w sel).toNat = 2 * sel.toNat + w.toNat := by
  have hsel : sel.toNat < 8 := sel.isLt
  have hw : w.toNat < 2 := w.isLt
  have hshift : (sel.setWidth 4 <<< 1).toNat = sel.toNat <<< 1 := by
    simp only [BitVec.toNat_shiftLeft, BitVec.toNat_setWidth, Nat.shiftLeft_eq]
    omega
  have hwidth : (w.setWidth 4).toNat = w.toNat := by
    rw [BitVec.toNat_setWidth]
    omega
  rw [regIdOf, BitVec.toNat_or, hshift, hwidth, ← Nat.shiftLeft_add_eq_or_of_lt hw, Nat.shiftLeft_eq]
  omega

/-- An identity is the composite index of its own lowest bit and upper three bits. -/
theorem regIdOf_extractLsb' (id : RegId) : regIdOf (id.extractLsb' 0 1) (id.extractLsb' 1 3) = id := by
  apply BitVec.eq_of_toNat_eq
  have hid : id.toNat < 16 := id.isLt
  simp only [toNat_regIdOf, BitVec.extractLsb'_toNat, Nat.shiftRight_eq_div_pow]
  omega

theorem nodup_regNameTable : regNameTable.toList.Nodup := by decide

theorem regName_injective : Function.Injective regName := fun a b h =>
  BitVec.eq_of_toNat_eq ((nodup_regNameTable.getElem_inj_iff (hi := a.isLt) (hj := b.isLt)).mp h)

/-- Width 0 names the eight byte registers, whatever the selector. -/
theorem regName_byte_mem : ∀ sel : Sel, regName (regIdOf 0 sel) ∈
    ["al".toList, "cl".toList, "dl".toList, "bl".toList, "ah".toList, "ch".toList, "dh".toList, "bh".toList] := by decide

/-- Width 1 names the eight word registers, whatever the selector. -/
theorem regName_word_mem : ∀ sel : Sel, regName (regIdOf 1 sel) ∈
    ["ax".toList, "cx".toList, "dx".toList, "bx".toList, "sp".toList, "bp".toList, "si".toList, "di".toList] := by decide

theorem opValid_eq_one_iff (op : Opcode) : opValid op = 1 ↔ op = 34 := by
  have hbeq : op = 34 ↔ (op == Config.opcodeMov) = true := beq_iff_eq.symm
  rw [hbeq, opValid]
  cases op == Config.opcodeMov <;> decide

/-- A word has an `Ok` result exactly when its opcode is the one of the table. -/
theorem coreResult_ok_iff {w : Word} :
    (∃ dst src, coreResult w = .ok .mov dst src) ↔ (decodeRecord w).opcode = Config.opcodeMov := by
  refine ⟨fun ⟨dst, src, hok⟩ => ?_, fun h => ⟨_, _, coreResult_of_mov h⟩⟩
  by_contra h
  rw [coreResult_of_unknown h] at hok
  cases hok

end Sys2Proof.Machine

/-! The operand roles: what the router makes destination and source, in each direction (41_register_name_lut.md R119). -/

namespace Sys2Proof.Machine

theorem route_of_ne_zero {α : Type} {d : Bit} (h : d ≠ 0) (rm reg : α) : route d rm reg = (reg, rm) := if_neg h

@[simp] theorem route_self {α : Type} (d : Bit) (a : α) : route d a a = (a, a) := ite_self _

/-- The roles of R119 read from direction 1, as R122 writes them. -/
theorem route_eq_ite_one {α : Type} (d : Bit) (rm reg : α) :
    route d rm reg = (if d = 1 then reg else rm, if d = 1 then rm else reg) := by
  rcases BitVec.eq_zero_or_eq_one d with rfl | rfl <;> rfl

theorem operandRouter_eq (d : Bit) (rm reg : LutOut) :
    operandRouter d rm reg = { dst := (route d rm reg).1, src := (route d rm reg).2 } := rfl

theorem decodeCore_operands (w : Word) :
    (decodeCore w).operands =
      operandRouter (decodeRecord w).direction (registerNameLut (decodeRecord w).width (decodeRecord w).r_m)
        (registerNameLut (decodeRecord w).width (decodeRecord w).reg) := rfl

end Sys2Proof.Machine

/-! The result and the line of an encoded `mov` (41_register_name_lut.md R122, R123). -/

namespace Sys2Proof.Machine

open Sys2Proof.Safety

@[simp] theorem decodeWord_encodeWord (i : Instr) : decodeWord (encodeWord i) = .ok i := by
  have hrecord : decodeRecord (encodeWord i) = i.record := decodeRecord_encodeRecord i.record
  cases i
  rw [decodeWord_of_mov (by rw [hrecord]; rfl), hrecord]
  rfl

theorem render_mov (dst src : RegId) :
    render .mov dst src = "mov ".toList ++ regName dst ++ ", ".toList ++ regName src ++ "\n".toList := rfl

variable (mod : BitVec 2) (reg r_m : Sel) (d w : Bit)

/-- The result of an encoded `mov`, in which its `mod` does not occur. -/
theorem coreResult_encodeWord_mov :
    coreResult (encodeWord (.mov mod reg r_m d w)) =
      .ok .mov (if d = 1 then regIdOf w reg else regIdOf w r_m) (if d = 1 then regIdOf w r_m else regIdOf w reg) := by
  rw [coreResult_of_decodeWord (decodeWord_encodeWord _), route_eq_ite_one]

theorem lineOf_encodeWord_mov :
    lineOf (encodeWord (.mov mod reg r_m d w)) =
      some (render .mov (if d = 1 then regIdOf w reg else regIdOf w r_m) (if d = 1 then regIdOf w r_m else regIdOf w reg)) :=
  lineOf_of_ok (coreResult_encodeWord_mov mod reg r_m d w)

/-- Both operands of a `mov` are registers of its width: what holds at every selector holds of both. -/
theorem forall_mem_operands {P : RegId → Prop} (h : ∀ sel, P (regIdOf w sel)) :
    ∀ id ∈ [if d = 1 then regIdOf w reg else regIdOf w r_m, if d = 1 then regIdOf w r_m else regIdOf w reg], P id := by
  rcases BitVec.eq_zero_or_eq_one d with rfl | rfl <;> simp [h]

end Sys2Proof.Machine

/-! The obligations of 41_register_name_lut.md on the lookups, the roles and the result of `mov`, settled. -/

namespace Sys2Proof.Proofs

open Sys2Proof.Machine Sys2Proof.Safety

/-- Settles O18: the word decodes to its own instruction, and the result and line of that name neither `mod` nor anything but registers of width `w`. -/
theorem movDecodeResult : Obligations.MovDecodeResult := by
  refine ⟨fun mod reg r_m d w => ⟨?pattern, ?result, ?line, ?equalSelectors, ?byteNames, ?wordNames, ?modFree⟩,
    fun _ => coreResult_ok_iff.mpr, by decide, by decide⟩
  case pattern => exact Laws.TableMatch.mov mod reg r_m d w
  case result => exact coreResult_encodeWord_mov mod reg r_m d w
  case line => rw [lineOf_encodeWord_mov, render_mov]
  case equalSelectors =>
    rintro rfl
    rfl
  case byteNames =>
    rintro rfl
    exact forall_mem_operands reg r_m d 0 regName_byte_mem
  case wordNames =>
    rintro rfl
    exact forall_mem_operands reg r_m d 1 regName_word_mem
  case modFree =>
    intro mod'
    simp only [coreResult_encodeWord_mov, lineOf_encodeWord_mov, and_self]

/-- Settles O8: the lookup drives the composite index, which is a sum. -/
theorem compositeIndex : Obligations.CompositeIndex :=
  ⟨toNat_regIdOf, by decide, by decide, by decide⟩

/-- Settles O9: the table is read entry by entry, and it has no name twice. -/
theorem registerNames : Obligations.RegisterNames :=
  ⟨by decide, regIdOf_extractLsb', fun _ _ h => regName_injective h, by decide⟩

/-- Settles O11: both sides of the last clause say that the opcode is 34. -/
theorem opcodeRecognition : Obligations.OpcodeRecognition :=
  ⟨opValid_eq_one_iff, rfl, fun _ => (opValid_eq_one_iff _).trans coreResult_ok_iff.symm⟩

/-- Settles O13: the router's two directions, and equal lookups where the selectors are equal. -/
theorem operandRoles : Obligations.OperandRoles := by
  refine ⟨fun w => ?_, by decide, by decide⟩
  dsimp only
  rw [decodeCore_operands, operandRouter_eq]
  refine ⟨fun hzero => ?_, fun hone => ?_, fun hequal => ?_⟩
  · rw [hzero]
    exact ⟨rfl, rfl⟩
  · rw [route_of_ne_zero hone]
    exact ⟨rfl, rfl⟩
  · rw [hequal, route_self]

/-- Settles O15: success on the opcode of the table, and the failure value on every other. -/
theorem lookupFailureIsAValue : Obligations.LookupFailureIsAValue := fun _ =>
  ⟨coreResult_ok_iff.mpr, coreResult_of_unknown⟩

end Sys2Proof.Proofs

/-! The step of a running host at a word with an `Ok` result, and at the end of an input of even length (60_exceptions.md R143, R145). -/

namespace Sys2Proof.Machine

theorem runWord_of_ok {w : Word} {m : Mnemonic} {dst src : RegId} (hc : coreResult w = .ok m dst src) (s : State) :
    runWord w s = .next (emitResult m dst src s) := by
  rw [runWord_eq, hc]

theorem endOfInput_of_even {s : State} (heven : s.mem.size % 2 = 0) : endOfInput s = .next (s.setStatus .done) :=
  if_pos heven

variable {s : State}

theorem step_of_ok_word {w : Word} {m : Mnemonic} {dst src : RegId} (hs : s.status = .running) (hk : s.k < s.mem.wordCount)
    (hw : s.mem.wordAt s.k = .ok w) (hc : coreResult w = .ok m dst src) :
    step s = .next (emitResult m dst src s) := by
  rw [step_running hs, runningStep_word hk hw, runWord_of_ok hc]

theorem step_of_even_end (hs : s.status = .running) (hk : s.k = s.mem.wordCount) (heven : s.mem.size % 2 = 0) :
    step s = .next (s.setStatus .done) := by
  rw [step_running hs, runningStep_end hk, endOfInput_of_even heven]

end Sys2Proof.Machine

/-! The obligations of 60_exceptions.md on an `Ok` word and on an even end, settled. -/

namespace Sys2Proof.Proofs

open Sys2Proof.Machine

/-- Settles O26: the step is the effect of the word's `Ok` result. -/
theorem okWordEmitsItsLine : Obligations.OkWordEmitsItsLine := by
  intro s w m dst src hs hk hw hc
  rw [step_of_ok_word hs hk hw hc, emitResult_eq]

/-- Settles O28: an empty input is at its even end from the start, where both logs are still empty. -/
theorem evenInputEndsDone : Obligations.EvenInputEndsDone := by
  refine ⟨fun s => step_of_even_end, fun ep tp => ?emptyInput⟩
  case emptyInput =>
    have hk : (State.start [] ep tp).k = (State.start [] ep tp).mem.wordCount := by simp
    have heven : (State.start [] ep tp).mem.size % 2 = 0 := by simp
    exact step_of_even_end (State.start_status [] ep tp) hk heven

end Sys2Proof.Proofs

/-! Fields in place: a field put back where it was cut is the word under the field's mask (40_bitfield_decoder.md R75). -/

namespace Sys2Proof

/-- The mask of the field of `n` bits whose lowest bit is `low`. -/
def fieldMask (low n : Nat) : Word := (BitVec.allOnes n).setWidth 16 <<< low

/-- The mask holds the bits of its field and no other. -/
theorem getLsbD_fieldMask {i : Nat} (low n : Nat) (hi : i < 16) :
    (fieldMask low n).getLsbD i = true ↔ low ≤ i ∧ i < low + n := by
  simp [fieldMask, hi]
  omega

theorem placed_extractLsb'_eq_and (w : Word) (low n : Nat) :
    (w.extractLsb' low n).setWidth 16 <<< low = w &&& fieldMask low n := by
  ext i hi
  by_cases hlow : low ≤ i
  · have hback : low + (i - low) = i := by omega
    have hnot : ¬ i < low := by omega
    simp [fieldMask, hback, hnot, hi, BitVec.getLsbD_eq_getElem, Bool.and_comm]
  · have hbelow : i < low := by omega
    simp [fieldMask, hbelow]

/-- Placing a field loses none of its bits. -/
theorem placed_inj {n low : Nat} {x y : BitVec n} (hfits : low + n ≤ 16)
    (h : x.setWidth 16 <<< low = y.setWidth 16 <<< low) : x = y := by
  rw [← extractLsb'_placed_same x low hfits, h, extractLsb'_placed_same y low hfits]

theorem width_placed (w : Word) : (decodeRecord w).width.setWidth 16 = w &&& 0x0001 := by
  rw [← BitVec.shiftLeft_zero ((decodeRecord w).width.setWidth 16)]
  exact placed_extractLsb'_eq_and w 0 1

theorem direction_placed (w : Word) : (decodeRecord w).direction.setWidth 16 <<< 1 = w &&& 0x0002 :=
  placed_extractLsb'_eq_and w 1 1

theorem opcode_placed (w : Word) : (decodeRecord w).opcode.setWidth 16 <<< 2 = w &&& 0x00FC :=
  placed_extractLsb'_eq_and w 2 6

theorem r_m_placed (w : Word) : (decodeRecord w).r_m.setWidth 16 <<< 8 = w &&& 0x0700 :=
  placed_extractLsb'_eq_and w 8 3

theorem reg_placed (w : Word) : (decodeRecord w).reg.setWidth 16 <<< 11 = w &&& 0x3800 :=
  placed_extractLsb'_eq_and w 11 3

theorem mod_placed (w : Word) : (decodeRecord w).mod.setWidth 16 <<< 14 = w &&& 0xC000 :=
  placed_extractLsb'_eq_and w 14 2

/-- Encoding undoes decoding: the six parts are the word under masks that together are all sixteen bits. -/
@[simp] theorem encodeRecord_decodeRecord (w : Word) : encodeRecord (decodeRecord w) = w := by
  rw [encodeRecord, width_placed, direction_placed, opcode_placed, r_m_placed, reg_placed, mod_placed]
  simp only [← BitVec.and_or_distrib_left]
  exact BitVec.and_allOnes

end Sys2Proof

/-! A word and its two bytes (20_memory.md R33). -/

namespace Sys2Proof

@[simp] theorem lowByte_wordOfBytes (lo hi : Byte) : lowByte (wordOfBytes lo hi) = lo := by
  have hlo : lo.setWidth 16 = lo.setWidth 16 <<< 0 := (BitVec.shiftLeft_zero _).symm
  rw [wordOfBytes, lowByte, BitVec.extractLsb'_or, hlo, extractLsb'_placed_same lo 0 (by decide),
    extractLsb'_placed_disjoint hi 8 (.inl (by decide)), BitVec.or_zero]

@[simp] theorem highByte_wordOfBytes (lo hi : Byte) : highByte (wordOfBytes lo hi) = hi := by
  have hlo : lo.setWidth 16 = lo.setWidth 16 <<< 0 := (BitVec.shiftLeft_zero _).symm
  rw [wordOfBytes, highByte, BitVec.extractLsb'_or, hlo, extractLsb'_placed_same hi 8 (by decide),
    extractLsb'_placed_disjoint lo 0 (.inr (by decide)), BitVec.zero_or]

@[simp] theorem wordOfBytes_lowByte_highByte (w : Word) : wordOfBytes (lowByte w) (highByte w) = w := by
  have hlow : (lowByte w).setWidth 16 = w &&& 0x00FF := by
    rw [← BitVec.shiftLeft_zero ((lowByte w).setWidth 16)]
    exact placed_extractLsb'_eq_and w 0 8
  have hhigh : (highByte w).setWidth 16 <<< 8 = w &&& 0xFF00 := placed_extractLsb'_eq_and w 8 8
  rw [wordOfBytes, hlow, hhigh, ← BitVec.and_or_distrib_left]
  exact BitVec.and_allOnes

/-- The two bytes do not overlap, so the word is a sum. -/
theorem toNat_wordOfBytes (lo hi : Byte) : (wordOfBytes lo hi).toNat = lo.toNat + 256 * hi.toNat := by
  have hlo : lo.toNat < 256 := lo.isLt
  have hhi : hi.toNat < 256 := hi.isLt
  have hlow : (lo.setWidth 16).toNat = lo.toNat := by
    rw [BitVec.toNat_setWidth]
    omega
  have hhigh : (hi.setWidth 16 <<< 8).toNat = hi.toNat <<< 8 := by
    simp only [BitVec.toNat_shiftLeft, BitVec.toNat_setWidth, Nat.shiftLeft_eq]
    omega
  rw [wordOfBytes, BitVec.or_comm, BitVec.toNat_or, hlow, hhigh, ← Nat.shiftLeft_add_eq_or_of_lt hlo, Nat.shiftLeft_eq]
  omega

end Sys2Proof

/-! Decoding and encoding of instructions (30_encoding.md sections 1 and 3). -/

namespace Sys2Proof

/-- A decoded instruction stands for the record of its word. -/
theorem record_of_decodeWord {w : Word} {i : Instr} (h : decodeWord w = .ok i) : i.record = decodeRecord w := by
  by_cases hop : (decodeRecord w).opcode = Config.opcodeMov
  · rw [decodeWord_of_mov hop] at h
    cases h
    rw [Instr.record, ← hop]
  · rw [decodeWord_of_unknown hop] at h
    cases h

theorem encodeWord_of_decodeWord {w : Word} {i : Instr} (h : decodeWord w = .ok i) : encodeWord i = w := by
  rw [encodeWord, record_of_decodeWord h, encodeRecord_decodeRecord]

theorem encode_of_decodeWord {lo hi : Byte} {i : Instr} (h : decodeWord (wordOfBytes lo hi) = .ok i) :
    encode i = [lo, hi] := by
  rw [encode, encodeWord_of_decodeWord h, lowByte_wordOfBytes, highByte_wordOfBytes]

theorem decode_cons_cons_ok_iff {lo hi : Byte} {bs rest : List Byte} {i : Instr} :
    decode (lo :: hi :: bs) = .ok (i, rest) ↔ decodeWord (wordOfBytes lo hi) = .ok i ∧ bs = rest := by
  rw [decode]
  cases decodeWord (wordOfBytes lo hi) <;> simp

theorem decode_encode_append (i : Instr) (rest : List Byte) : decode (encode i ++ rest) = .ok (i, rest) :=
  decode_cons_cons_ok_iff.mpr ⟨by rw [wordOfBytes_lowByte_highByte, Machine.decodeWord_encodeWord], rfl⟩

/-- Bytes that decode are two at least, and the first two are the instruction's. -/
theorem eq_encode_append_of_decode {bs rest : List Byte} {i : Instr} (h : decode bs = .ok (i, rest)) :
    bs = encode i ++ rest := by
  match bs with
  | [] => cases h
  | [b] => cases h
  | lo :: hi :: tail =>
    obtain ⟨hword, rfl⟩ := decode_cons_cons_ok_iff.mp h
    rw [encode_of_decodeWord hword]
    rfl

end Sys2Proof

/-! The obligations of 30_encoding.md and 40_bitfield_decoder.md on encoding and decoding, settled. -/

namespace Sys2Proof.Proofs

/-- Settles O5: a word is its two bytes put together, and encoding and decoding undo each other on records. -/
theorem decodeAndEncodeAgree : Obligations.DecodeAndEncodeAgree :=
  ⟨decode_encode_append, fun _ _ => encodeWord_of_decodeWord, fun _ _ _ => eq_encode_append_of_decode⟩

/-- Settles O2: the fields in place are the word under six masks without a common bit. -/
theorem recordsAndWordsAreInBijection : Obligations.RecordsAndWordsAreInBijection :=
  ⟨encodeRecord_decodeRecord, decodeRecord_encodeRecord,
    fun w => ⟨width_placed w, direction_placed w, opcode_placed w, r_m_placed w, reg_placed w, mod_placed w⟩,
    by decide, by decide⟩

end Sys2Proof.Proofs

/-! What a change of single bits does to the fields of a word (40_bitfield_decoder.md section 3). -/

namespace Sys2Proof

/-- Cutting bits `low` to `low + n - 1` out of a word with one bit set gives zero exactly when the bit is outside. -/
theorem extractLsb'_single_bit_ne_zero_iff {i : Nat} (low n : Nat) (hi : i < 16) :
    (1#16 <<< i).extractLsb' low n ≠ 0#n ↔ low ≤ i ∧ i < low + n := by
  rw [← BitVec.twoPow_eq, ne_eq, BitVec.eq_of_getLsbD_eq_iff]
  simp only [BitVec.getLsbD_extractLsb', BitVec.getLsbD_twoPow, BitVec.getLsbD_zero]
  constructor
  · intro h
    by_contra hout
    refine h fun j hj => ?_
    have hne : i ≠ low + j := by omega
    simp [hne]
  · rintro ⟨hlow, hhigh⟩ h
    have hin : low + (i - low) = i := by omega
    have hlen : i - low < n := by omega
    have hbit := h (i - low) hlen
    simp [hin, hlen, hi] at hbit

/-- Flipping one bit of a word changes a field exactly when the field's mask holds the bit. -/
theorem extractLsb'_flip_ne_iff {i : Nat} (w : Word) (low n : Nat) (hi : i < 16) :
    (w ^^^ (1#16 <<< i)).extractLsb' low n ≠ w.extractLsb' low n ↔ (fieldMask low n).getLsbD i = true := by
  rw [BitVec.extractLsb'_xor, getLsbD_fieldMask low n hi, ← extractLsb'_single_bit_ne_zero_iff low n hi]
  exact not_congr xor_left_eq_self_iff

end Sys2Proof

/-! The obligation of 40_bitfield_decoder.md on single bits, settled. -/

namespace Sys2Proof.Proofs

/-- Settles O3: each of the six fields is cut out where its mask has its bits. -/
theorem oneBitChangesOneField : Obligations.OneBitChangesOneField := fun w i =>
  ⟨extractLsb'_flip_ne_iff w 0 1 i.isLt, extractLsb'_flip_ne_iff w 1 1 i.isLt, extractLsb'_flip_ne_iff w 2 6 i.isLt,
    extractLsb'_flip_ne_iff w 8 3 i.isLt, extractLsb'_flip_ne_iff w 11 3 i.isLt, extractLsb'_flip_ne_iff w 14 2 i.isLt⟩

end Sys2Proof.Proofs

/-! The words of the one row of the opcode map (30_encoding.md R55, R56). -/

namespace Sys2Proof

/-- The table's mask and value hold exactly of the words with opcode 34. -/
theorem and_opcodeMask_eq_iff (w : Word) : w &&& 0x00FC = 0x0088 ↔ (decodeRecord w).opcode = Config.opcodeMov := by
  rw [← opcode_placed]
  refine ⟨fun h => placed_inj (low := 2) (by decide) h, fun h => ?_⟩
  rw [h]
  rfl

/-- The opcode stands in the upper six bits of the first byte, so four values of that byte carry opcode 34. -/
theorem opcode_eq_mov_iff_lowByte_mem (w : Word) :
    (decodeRecord w).opcode = Config.opcodeMov ↔ lowByte w ∈ ([0x88, 0x89, 0x8A, 0x8B] : List Byte) := by
  have hopcode : (decodeRecord w).opcode.toNat = w.toNat / 4 % 64 := by
    rw [decodeRecord, BitVec.extractLsb'_toNat, Nat.shiftRight_eq_div_pow]
  have hlow : (lowByte w).toNat = w.toNat % 256 := by
    rw [lowByte, BitVec.extractLsb'_toNat, Nat.shiftRight_zero]
  simp only [List.mem_cons, List.not_mem_nil, or_false, BitVec.toNat_eq, hopcode, hlow, BitVec.ofNat_eq_ofNat,
    BitVec.toNat_ofNat]
  omega

theorem exists_decodeWord_iff {w : Word} : (∃ i, decodeWord w = .ok i) ↔ (decodeRecord w).opcode = Config.opcodeMov := by
  refine ⟨fun ⟨i, hok⟩ => ?_, fun h => ⟨_, decodeWord_of_mov h⟩⟩
  by_contra h
  rw [decodeWord_of_unknown h] at hok
  cases hok

end Sys2Proof

/-! The obligation of 30_encoding.md on the opcode map, settled. -/

namespace Sys2Proof.Proofs

/-- Settles O6: every clause is about the opcode being 34. -/
theorem movWordsAreTheMaskedOnes : Obligations.MovWordsAreTheMaskedOnes := by
  intro w
  rw [and_opcodeMask_eq_iff]
  exact ⟨exists_decodeWord_iff, opcode_eq_mov_iff_lowByte_mem w, decodeWord_of_unknown⟩

end Sys2Proof.Proofs

/-! When two results name the same registers and two lines are the same text (30_encoding.md section 5). -/

namespace Sys2Proof.Machine

open Sys2Proof.Safety

theorem regIdOf_inj {w w' : Bit} {sel sel' : Sel} : regIdOf w sel = regIdOf w' sel' ↔ w = w' ∧ sel = sel' := by
  have hw : w.toNat < 2 := w.isLt
  have hw' : w'.toNat < 2 := w'.isLt
  simp only [BitVec.toNat_eq, toNat_regIdOf]
  omega

theorem length_regName : ∀ id : RegId, (regName id).length = 2 := by decide

/-- The names all have one length, so the line of a `mov` tells its operands apart. -/
theorem render_mov_inj {dst src dst' src' : RegId} :
    render .mov dst src = render .mov dst' src' ↔ dst = dst' ∧ src = src' := by
  refine ⟨fun h => ?_, fun ⟨hdst, hsrc⟩ => by rw [hdst, hsrc]⟩
  simp only [render, List.append_assoc, List.append_cancel_left_eq] at h
  obtain ⟨hdst, hrest⟩ := List.append_inj h (by rw [length_regName, length_regName])
  exact ⟨regName_injective hdst, regName_injective (by simpa using hrest)⟩

/-- At direction 0 the line of a `mov` tells its width and both selectors. -/
theorem lineOf_mov_zero_inj {m₁ m₂ : BitVec 2} {g₁ r₁ g₂ r₂ : Sel} {w₁ w₂ : Bit} :
    lineOf (encodeWord (.mov m₁ g₁ r₁ 0#1 w₁)) = lineOf (encodeWord (.mov m₂ g₂ r₂ 0#1 w₂)) ↔
      w₁ = w₂ ∧ g₁ = g₂ ∧ r₁ = r₂ := by
  rw [lineOf_encodeWord_mov, lineOf_encodeWord_mov, Option.some_inj, render_mov_inj]
  simp only [reduceIte, regIdOf_inj, BitVec.reduceEq]
  tauto

/-- The form with direction 1 has the line of the form with direction 0 and the selectors exchanged. -/
theorem lineOf_mov_one_eq_exchanged (mod : BitVec 2) (reg r_m : Sel) (w : Bit) :
    lineOf (encodeWord (.mov mod reg r_m 1#1 w)) = lineOf (encodeWord (.mov mod r_m reg 0#1 w)) := by
  rw [lineOf_encodeWord_mov, lineOf_encodeWord_mov]
  rfl

end Sys2Proof.Machine

/-! The obligation of 30_encoding.md on equal lines, settled. -/

namespace Sys2Proof.Proofs

open Sys2Proof.Machine Sys2Proof.Safety

/-- Settles O7: exchanging the selectors makes up for a different d, and at one d the line tells width and selectors. -/
theorem sameLineExactlyForSwappedForms : Obligations.SameLineExactlyForSwappedForms := by
  intro m₁ m₂ g₁ r₁ g₂ r₂ d₁ w₁ d₂ w₂
  rcases BitVec.eq_zero_or_eq_one d₁ with rfl | rfl <;> rcases BitVec.eq_zero_or_eq_one d₂ with rfl | rfl
  · simp [lineOf_mov_zero_inj]
  · simp [lineOf_mov_one_eq_exchanged m₂, lineOf_mov_zero_inj]
  · simp [lineOf_mov_one_eq_exchanged m₁, lineOf_mov_zero_inj, and_comm]
  · simp [lineOf_mov_one_eq_exchanged, lineOf_mov_zero_inj, and_comm]

end Sys2Proof.Proofs

/-! The fields of a word with its direction bit flipped, and of a word without its `mod` (40_bitfield_decoder.md R71, R74). -/

namespace Sys2Proof

theorem decodeRecord_flip_direction (w : Word) :
    decodeRecord (w ^^^ 0x0002) = { decodeRecord w with direction := (decodeRecord w).direction ^^^ 1 } := by
  simp [decodeRecord, BitVec.extractLsb'_xor]

/-- Clearing bits 15 and 14 leaves every field below them. -/
theorem extractLsb'_and_3FFF (w : Word) {low n : Nat} (hbelow : low + n ≤ 14) :
    (w &&& 0x3FFF).extractLsb' low n = w.extractLsb' low n := by
  ext i hi
  have hkept : (0x3FFF#16).getLsbD (low + i) = true :=
    (getLsbD_fieldMask 0 14 (by omega)).mpr ⟨Nat.zero_le _, by omega⟩
  simp [hkept]

theorem decodeRecord_and_3FFF (w : Word) : decodeRecord (w &&& 0x3FFF) = { decodeRecord w with mod := 0 } := by
  have hmod : (w &&& 0x3FFF).extractLsb' 14 2 = 0 := by simp [BitVec.extractLsb'_and]
  simp only [decodeRecord, hmod, extractLsb'_and_3FFF, Nat.reduceAdd, Nat.reduceLeDiff]

end Sys2Proof

/-! What the core makes of a word with its direction bit flipped, and of a word without its `mod` (41_register_name_lut.md section 3). -/

namespace Sys2Proof.Machine

open Sys2Proof.Safety

theorem route_flip {α : Type} (d : Bit) (rm reg : α) : route (d ^^^ 1) rm reg = (route d rm reg).swap := by
  rcases BitVec.eq_zero_or_eq_one d with rfl | rfl <;> rfl

theorem operandRouter_flip (d : Bit) (rm reg : LutOut) :
    operandRouter (d ^^^ 1) rm reg = { dst := (operandRouter d rm reg).src, src := (operandRouter d rm reg).dst } := by
  simp only [operandRouter_eq, route_flip, Prod.fst_swap, Prod.snd_swap]

theorem decodeCore_mnemonic (w : Word) : (decodeCore w).mnemonic = mnemonicLut (decodeRecord w).opcode := rfl

/-- An `Ok` result is the one of opcode 34, with the routed operands. -/
theorem ok_of_coreResult {w : Word} {m : Mnemonic} {dst src : RegId} (h : coreResult w = .ok m dst src) :
    (decodeRecord w).opcode = Config.opcodeMov ∧ movResult (decodeRecord w) = .ok m dst src := by
  by_cases hop : (decodeRecord w).opcode = Config.opcodeMov
  · exact ⟨hop, by rw [← coreResult_of_mov hop, h]⟩
  · rw [coreResult_of_unknown hop] at h
    cases h

theorem unknown_of_coreResult {w : Word} {v : Opcode} (h : coreResult w = .unknownOpcode v) :
    (decodeRecord w).opcode ≠ Config.opcodeMov ∧ (decodeRecord w).opcode = v := by
  by_cases hop : (decodeRecord w).opcode = Config.opcodeMov
  · rw [coreResult_of_mov hop] at h
    cases h
  · rw [coreResult_of_unknown hop] at h
    cases h
    exact ⟨hop, rfl⟩

theorem movResult_flip_direction {f : Record} {m : Mnemonic} {dst src : RegId} (h : movResult f = .ok m dst src) :
    movResult { f with direction := f.direction ^^^ 1 } = .ok m src dst := by
  cases h
  simp only [movResult, route_flip, Prod.fst_swap, Prod.snd_swap]

theorem coreResult_flip_direction {w : Word} {m : Mnemonic} {dst src : RegId} (h : coreResult w = .ok m dst src) :
    coreResult (w ^^^ 0x0002) = .ok m src dst := by
  obtain ⟨hop, hmov⟩ := ok_of_coreResult h
  have hflip := decodeRecord_flip_direction w
  rw [coreResult_of_mov (by rw [hflip, hop]), hflip, movResult_flip_direction hmov]

theorem coreResult_and_3FFF (w : Word) : coreResult (w &&& 0x3FFF) = coreResult w := by
  simp only [coreResult, movResult, decodeRecord_and_3FFF]

theorem lineOf_and_3FFF (w : Word) : lineOf (w &&& 0x3FFF) = lineOf w := by
  simp only [lineOf, coreResult_and_3FFF]

theorem mnemonic_and_3FFF (w : Word) : (decodeCore (w &&& 0x3FFF)).mnemonic = (decodeCore w).mnemonic := by
  simp only [decodeCore_mnemonic, decodeRecord_and_3FFF]

theorem operands_and_3FFF (w : Word) : (decodeCore (w &&& 0x3FFF)).operands = (decodeCore w).operands := by
  simp only [decodeCore_operands, decodeRecord_and_3FFF]

end Sys2Proof.Machine

/-! The obligations on the direction bit and on `mod`, settled. -/

namespace Sys2Proof.Proofs

open Sys2Proof.Machine

/-- Settles O14: the flip reaches nothing but the direction field, and the router exchanges its outputs on it. -/
theorem directionInversion : Obligations.DirectionInversion := by
  intro w
  simp only [decodeCore_operands, decodeCore_mnemonic, decodeRecord_flip_direction, operandRouter_flip, true_and]
  exact fun m dst src => coreResult_flip_direction

/-- Settles O16: each of the four is what it is for the word with `mod` cleared. -/
theorem modIsNeverRead : Obligations.ModIsNeverRead := by
  intro w₁ w₂ h
  rw [← coreResult_and_3FFF w₁, ← lineOf_and_3FFF w₁, ← mnemonic_and_3FFF w₁, ← operands_and_3FFF w₁, h]
  exact ⟨coreResult_and_3FFF w₂, lineOf_and_3FFF w₂, mnemonic_and_3FFF w₂, operands_and_3FFF w₂⟩

end Sys2Proof.Proofs

/-! The ports of `decode_core`: the codes spell the names, the router passes the lookups along (41_register_name_lut.md sections 1, 2, 4 and 6). -/

namespace Sys2Proof.Machine

/-- The code table is the name table, letter by letter. -/
theorem regNameCodes_spell : ∀ id : RegId, [(regNameCodes id).1, (regNameCodes id).2] = (regName id).map charCode := by
  decide

theorem registerNameLut_spells (w : Bit) (sel : Sel) :
    [(registerNameLut w sel).name0, (registerNameLut w sel).name1] = (regName (registerNameLut w sel).regId).map charCode :=
  regNameCodes_spell (regIdOf w sel)

theorem mnemonicLut_mov :
    mnemonicLut Config.opcodeMov = { opValid := 1, mnemId := 0, mnem0 := 0x6D, mnem1 := 0x6F, mnem2 := 0x76 } := rfl

theorem opValid_of_ne {op : Opcode} (h : op ≠ Config.opcodeMov) : opValid op = 0 := by
  rw [opValid, beq_eq_false_iff_ne.mpr h]
  rfl

theorem mnemonicLut_of_ne {op : Opcode} (h : op ≠ Config.opcodeMov) :
    mnemonicLut op = { opValid := 0, mnemId := 0, mnem0 := 0x00, mnem1 := 0x00, mnem2 := 0x00 } := by
  rw [mnemonicLut, opValid_of_ne h]
  rfl

/-- What the router drives are two lookups of the word's width, one for each operand. -/
theorem exists_lut_of_route (d w : Bit) (r_m reg : Sel) :
    ∃ dst src : Sel, route d (regIdOf w r_m) (regIdOf w reg) = (regIdOf w dst, regIdOf w src) ∧
      operandRouter d (registerNameLut w r_m) (registerNameLut w reg) =
        { dst := registerNameLut w dst, src := registerNameLut w src } := by
  rcases BitVec.eq_zero_or_eq_one d with rfl | rfl
  · exact ⟨r_m, reg, rfl, rfl⟩
  · exact ⟨reg, r_m, rfl, rfl⟩

/-- The operands of an `Ok` result are on the ports as lookups. -/
theorem operands_of_ok {w : Word} {m : Mnemonic} {dst src : RegId} (h : coreResult w = .ok m dst src) :
    ∃ dstSel srcSel : Sel, dst = regIdOf (decodeRecord w).width dstSel ∧ src = regIdOf (decodeRecord w).width srcSel ∧
      (decodeCore w).operands =
        { dst := registerNameLut (decodeRecord w).width dstSel, src := registerNameLut (decodeRecord w).width srcSel } := by
  obtain ⟨-, hmov⟩ := ok_of_coreResult h
  obtain ⟨dstSel, srcSel, hroute, hports⟩ :=
    exists_lut_of_route (decodeRecord w).direction (decodeRecord w).width (decodeRecord w).r_m (decodeRecord w).reg
  rw [movResult, hroute] at hmov
  cases hmov
  exact ⟨dstSel, srcSel, rfl, rfl, hports⟩

/-- The bytes of a line: the three of the mnemonic, the two of each name, and the separators between them. -/
theorem lineBytes_render_mov (dst src : RegId) :
    lineBytes (render .mov dst src) =
      [0x6D, 0x6F, 0x76, 0x20] ++ (regName dst).map charCode ++ [0x2C, 0x20] ++ (regName src).map charCode ++ [0x0A] := by
  simp only [lineBytes, render, List.map_append]
  rfl

theorem length_lineBytes_render_mov (dst src : RegId) : (lineBytes (render .mov dst src)).length = 11 := by
  simp [lineBytes_render_mov, length_regName]

/-- The ports of a word with an `Ok` result spell its line. -/
theorem lineBytes_decodeCore_of_ok {w : Word} {m : Mnemonic} {dst src : RegId} (h : coreResult w = .ok m dst src) :
    lineBytes (render .mov dst src) = (decodeCore w).lineBytes := by
  obtain ⟨hop, -⟩ := ok_of_coreResult h
  obtain ⟨dstSel, srcSel, rfl, rfl, hports⟩ := operands_of_ok h
  rw [lineBytes_render_mov, ← regNameCodes_spell, ← regNameCodes_spell, CoreOut.lineBytes, hports, decodeCore_mnemonic, hop]
  rfl

end Sys2Proof.Machine

/-! The obligations of 41_register_name_lut.md on the ports and the lookups, and the words of 95_test_vectors.md, settled. -/

namespace Sys2Proof.Proofs

open Sys2Proof.Machine

/-- Settles O17: the operands on the ports are lookups of the result's identities, whose codes spell the names. -/
theorem portsCarryTheResult : Obligations.PortsCarryTheResult := by
  refine fun w => ⟨fun m dst src hok => ?ok, fun v hunknown => ?unknown⟩
  case ok =>
    cases m
    obtain ⟨hop, -⟩ := ok_of_coreResult hok
    obtain ⟨dstSel, srcSel, hdst, hsrc, hports⟩ := operands_of_ok hok
    refine ⟨?_, ?_, ?_, ?_, lineBytes_decodeCore_of_ok hok, length_lineBytes_render_mov dst src⟩
    · rw [decodeCore_mnemonic, hop, mnemonicLut_mov]
    · rw [decodeCore_mnemonic, hop, mnemonicLut_mov]
      rfl
    · rw [hports, hdst]
      rfl
    · rw [hports, hsrc]
      rfl
  case unknown =>
    obtain ⟨hne, rfl⟩ := unknown_of_coreResult hunknown
    refine ⟨?_, rfl, hne⟩
    rw [decodeCore_mnemonic, mnemonicLut_of_ne hne]

/-- Settles O10: the lookup reads both tables at one identity. -/
theorem nameCodesSpellTheName : Obligations.NameCodesSpellTheName :=
  registerNameLut_spells

/-- Settles O12: the two branches of the lookup. -/
theorem mnemonicOutputs : Obligations.MnemonicOutputs := fun _ =>
  ⟨fun hmov => (congrArg mnemonicLut hmov).trans mnemonicLut_mov, mnemonicLut_of_ne⟩

/-- Settles O4: each word evaluates as listed. -/
theorem specWordsDecode : Obligations.SpecWordsDecode := by
  unfold Obligations.SpecWordsDecode
  decide

end Sys2Proof.Proofs

/-! The bytes of an input, word by word (20_memory.md sections 2 and 3). -/

namespace Sys2Proof.Safety

/-- Two more bytes in front are a word more and leave the trailing byte. -/
theorem trailingOf_cons_cons (lo hi : Byte) (rest : List Byte) : trailingOf (lo :: hi :: rest) = trailingOf rest := by
  cases rest with
  | nil => simp [trailingOf]
  | cons b rest =>
    have hparity : (lo :: hi :: b :: rest).length % 2 = (b :: rest).length % 2 := by simp only [List.length_cons]; omega
    rw [trailingOf, trailingOf, hparity, List.getLast?_cons_cons, List.getLast?_cons_cons]

theorem bytes_of_words_append_trailing (bs : List Byte) :
    (wordsOf bs).flatMap (fun w => [lowByte w, highByte w]) ++ (trailingOf bs).toList = bs := by
  induction bs using wordsOf.induct with
  | case1 lo hi rest ih => simp [wordsOf, trailingOf_cons_cons, ih]
  | case2 b => rfl
  | case3 => rfl

theorem trailingOf_of_even {bs : List Byte} (h : bs.length % 2 = 0) : trailingOf bs = none := if_pos h

theorem trailingOf_of_odd {bs : List Byte} (h : bs.length % 2 = 1) : trailingOf bs = bs.getLast? := if_neg (by omega)

theorem trailingOf_isSome_iff (bs : List Byte) : (trailingOf bs).isSome ↔ bs.length % 2 = 1 := by
  rcases Nat.mod_two_eq_zero_or_one bs.length with heven | hodd
  · simp [trailingOf_of_even heven, heven]
  · have hne : bs ≠ [] := by
      rintro rfl
      cases hodd
    simp [trailingOf_of_odd hodd, hodd, hne]

end Sys2Proof.Safety

/-! The obligations of 20_memory.md on words and bytes, settled. -/

namespace Sys2Proof.Proofs

open Sys2Proof.Machine Sys2Proof.Safety

/-- Settles O21: the two bytes are cut out of the word where assembly put them. -/
theorem wordsAreLittleEndian : Obligations.WordsAreLittleEndian := fun _ _ lo hi hlo hhi =>
  ⟨wordOfBytes lo hi, Memory.wordAt_of_reads hlo hhi, toNat_wordOfBytes lo hi, lowByte_wordOfBytes lo hi,
    highByte_wordOfBytes lo hi⟩

/-- Settles O23: each word gives back its two bytes, and the length is even up to the trailing byte. -/
theorem everyByteIsAccountedFor : Obligations.EveryByteIsAccountedFor := fun bs =>
  ⟨bytes_of_words_append_trailing bs, trailingOf_isSome_iff bs⟩

end Sys2Proof.Proofs

/-! The rest of what a running host does: an unknown opcode and an odd end, and the step by its own word (60_exceptions.md R144, R146). -/

namespace Sys2Proof.Machine

theorem runWord_of_unknown {w : Word} {v : Opcode} (hc : coreResult w = .unknownOpcode v) (s : State) :
    runWord w s = .next (takeUnknownOpcode v s) := by
  rw [runWord_eq, hc]

theorem runWord_of_decodeWord {w : Word} {i : Instr} (h : decodeWord w = .ok i) (s : State) : runWord w s = exec i s := by
  rw [runWord, h]

theorem endOfInput_of_odd {s : State} {b : Byte} (hodd : s.mem.size % 2 = 1) (hb : s.mem.read (s.mem.size - 1) = some b) :
    endOfInput s = .next (takeTrailingByte b s) := by
  have hne : ¬ s.mem.size % 2 = 0 := by omega
  rw [endOfInput, if_neg hne, hb]

variable {s : State}

theorem step_of_word {w : Word} (hs : s.status = .running) (hk : s.k < s.mem.wordCount) (hw : s.mem.wordAt s.k = .ok w) :
    step s = runWord w s := by
  rw [step_running hs, runningStep_word hk hw]

theorem step_of_odd_end {b : Byte} (hs : s.status = .running) (hk : s.k = s.mem.wordCount) (hodd : s.mem.size % 2 = 1)
    (hb : s.mem.read (s.mem.size - 1) = some b) : step s = .next (takeTrailingByte b s) := by
  rw [step_running hs, runningStep_end hk, endOfInput_of_odd hodd hb]

/-- The bytes at `k` are read as one word, whose instruction is the whole step. -/
theorem step_of_decoded_bytes {lo hi : Byte} {i : Instr} (hs : s.status = .running) (hk : s.k < s.mem.wordCount)
    (hlo : s.mem.read (2 * s.k) = some lo) (hhi : s.mem.read (2 * s.k + 1) = some hi)
    (hword : decodeWord (wordOfBytes lo hi) = .ok i) : step s = exec i s := by
  rw [step_of_word hs hk (Memory.wordAt_of_reads hlo hhi), runWord_of_decodeWord hword]

/-- No step is enabled once the run has ended. -/
theorem step_of_ended (h : Safety.Ended s) : step s = .fault .runEnded := by
  cases hs : s.status with
  | running => exact absurd hs h
  | done => simp only [step, hostStep, hs]
  | aborted v => simp only [step, hostStep, hs]
  | rejected b => simp only [step, hostStep, hs]

end Sys2Proof.Machine

/-! The word placed by `withFetchWord` (70_reset_and_hazards.md section 2). -/

namespace Sys2Proof.Machine

/-- The table's word decodes as a word does, since its two bytes are put together again. -/
theorem decodeWord_of_decodeTableWord {nbits w : Nat} {i : Instr} (h : decodeTableWord nbits w = some i) :
    decodeWord (tableWord nbits w) = .ok i := by
  rw [decodeTableWord, decode, wordOfBytes_lowByte_highByte] at h
  cases hd : decodeWord (tableWord nbits w) with
  | ok j =>
    rw [hd] at h
    cases h
    rfl
  | error v =>
    rw [hd] at h
    cases h

theorem read_placeWord_low (m : Memory) (k : Nat) (w : Word) : (m.placeWord k w).read (2 * k) = some (lowByte w) := by
  have hlt : 2 * k < max m.size (2 * k + 2) := by omega
  rw [Memory.read_placeWord, if_pos hlt, if_pos rfl]

theorem read_placeWord_high (m : Memory) (k : Nat) (w : Word) :
    (m.placeWord k w).read (2 * k + 1) = some (highByte w) := by
  have hlt : 2 * k + 1 < max m.size (2 * k + 2) := by omega
  have hne : ¬ 2 * k + 1 = 2 * k := by omega
  rw [Memory.read_placeWord, if_pos hlt, if_neg hne, if_pos rfl]

theorem lt_wordCount_placeWord (m : Memory) (k : Nat) (w : Word) : k < (m.placeWord k w).wordCount := by
  rw [Memory.wordCount_eq, Memory.size_placeWord]
  omega

theorem step_withFetchWord (s : State) {nbits w : Nat} {i : Instr} (h : decodeWord (tableWord nbits w) = .ok i) :
    step (s.withFetchWord nbits w) = exec i (s.withFetchWord nbits w) :=
  step_of_decoded_bytes rfl (lt_wordCount_placeWord s.mem s.k _) (read_placeWord_low s.mem s.k _)
    (read_placeWord_high s.mem s.k _) (by rwa [wordOfBytes_lowByte_highByte])

end Sys2Proof.Machine

/-! What a step changes, and what no step changes (10_state.md sections 4 and 5). -/

namespace Sys2Proof.Machine

open Sys2Proof.Safety

/-- Two states with one input and one choice of policies. -/
def SameParameters (s t : State) : Prop :=
  t.mem = s.mem ∧ t.errorPolicy = s.errorPolicy ∧ t.trailingPolicy = s.trailingPolicy

theorem SameParameters.refl (s : State) : SameParameters s s := ⟨rfl, rfl, rfl⟩

theorem SameParameters.trans {s t u : State} (h : SameParameters s t) (h' : SameParameters t u) : SameParameters s u := by
  obtain ⟨hmem, hep, htp⟩ := h
  obtain ⟨hmem', hep', htp'⟩ := h'
  exact ⟨hmem'.trans hmem, hep'.trans hep, htp'.trans htp⟩

theorem takeUnknownOpcode_keeps_parameters (v : Opcode) (s : State) : SameParameters s (takeUnknownOpcode v s) := by
  cases hp : s.errorPolicy with
  | skip =>
    rw [takeUnknownOpcode_skip v hp]
    exact ⟨rfl, rfl, rfl⟩
  | abort =>
    rw [takeUnknownOpcode_abort v hp]
    exact ⟨rfl, rfl, rfl⟩

theorem takeTrailingByte_keeps_parameters (b : Byte) (s : State) : SameParameters s (takeTrailingByte b s) := by
  cases hp : s.trailingPolicy with
  | warn =>
    rw [takeTrailingByte_warn b hp]
    exact ⟨rfl, rfl, rfl⟩
  | reject =>
    rw [takeTrailingByte_reject b hp]
    exact ⟨rfl, rfl, rfl⟩

/-- No step writes the parameters of the run (10_state.md R26). -/
theorem step_keeps_parameters {s t : State} (h : step s = .next t) : SameParameters s t := by
  obtain ⟨-, ⟨w, m, dst, src, -, -, -, rfl⟩ | ⟨w, v, -, -, -, rfl⟩ | ⟨-, -, rfl⟩ | ⟨b, -, -, -, rfl⟩⟩ := step_cases h
  · exact ⟨rfl, rfl, rfl⟩
  · exact takeUnknownOpcode_keeps_parameters v s
  · exact ⟨rfl, rfl, rfl⟩
  · exact takeTrailingByte_keeps_parameters b s

theorem step_keeps_mem {s t : State} (h : step s = .next t) : t.mem = s.mem :=
  (step_keeps_parameters h).1

/-- The trailing byte ends the run with one diagnostic, under both policies. -/
theorem takeTrailingByte_ends (b : Byte) (s : State) :
    (takeTrailingByte b s).k = s.k ∧ Ended (takeTrailingByte b s) ∧ (takeTrailingByte b s).lines = s.lines ∧
      ∃ d, (takeTrailingByte b s).diags = s.diags ++ [d] := by
  cases hp : s.trailingPolicy with
  | warn =>
    rw [takeTrailingByte_warn b hp]
    exact ⟨rfl, Status.noConfusion, rfl, _, rfl⟩
  | reject =>
    rw [takeTrailingByte_reject b hp]
    exact ⟨rfl, Status.noConfusion, rfl, _, rfl⟩

theorem step_changes_at_most_one_log {s t : State} (h : step s = .next t) :
    (t.k = s.k + 1 ∧ t.status = .running ∧ t.diags = s.diags ∧ ∃ l, t.lines = s.lines ++ [l]) ∨
    (t.k = s.k + 1 ∧ t.status = .running ∧ t.lines = s.lines ∧ ∃ d, t.diags = s.diags ++ [d]) ∨
    (t.k = s.k ∧ Ended t ∧ t.lines = s.lines ∧ ∃ ds, ds.length ≤ 1 ∧ t.diags = s.diags ++ ds) := by
  obtain ⟨hs, ⟨w, m, dst, src, -, -, -, rfl⟩ | ⟨w, v, -, -, -, rfl⟩ | ⟨-, -, rfl⟩ | ⟨b, -, -, -, rfl⟩⟩ := step_cases h
  · exact .inl ⟨rfl, hs, rfl, _, rfl⟩
  · cases hp : s.errorPolicy with
    | skip =>
      rw [takeUnknownOpcode_skip v hp]
      exact .inr (.inl ⟨rfl, hs, rfl, _, rfl⟩)
    | abort =>
      rw [takeUnknownOpcode_abort v hp]
      exact .inr (.inr ⟨rfl, Status.noConfusion, rfl, [_], le_rfl, rfl⟩)
  · exact .inr (.inr ⟨rfl, Status.noConfusion, rfl, [], Nat.zero_le 1, (List.append_nil _).symm⟩)
  · obtain ⟨hk, hended, hlines, d, hdiags⟩ := takeTrailingByte_ends b s
    exact .inr (.inr ⟨hk, hended, hlines, [d], le_rfl, hdiags⟩)

/-- A step goes on to the next word or ends the run at this one. -/
theorem step_progress {s t : State} (h : step s = .next t) : (t.k = s.k + 1 ∧ t.status = .running) ∨ (t.k = s.k ∧ Ended t) := by
  obtain ⟨hk, hrunning, -, -⟩ | ⟨hk, hrunning, -, -⟩ | ⟨hk, hended, -, -⟩ := step_changes_at_most_one_log h
  · exact .inl ⟨hk, hrunning⟩
  · exact .inl ⟨hk, hrunning⟩
  · exact .inr ⟨hk, hended⟩

end Sys2Proof.Machine

/-! The invariant: it holds at the start, and each thing a step can do keeps it (10_state.md section 5). -/

namespace Sys2Proof.Safety

open Sys2Proof.Machine

/-- While the run is under way the invariant is about the input and the position alone. -/
theorem inv_of_running {s : State} (hs : s.status = .running) (hwf : s.mem.wf = true) (hk : s.k ≤ s.mem.wordCount) : Inv s where
  canonical := hwf
  position := hk
  done h := by simp [hs] at h
  aborted v h := by simp [hs] at h
  rejected b h := by simp [hs] at h

theorem inv_start (bs : List Byte) (ep : ErrorPolicy) (tp : TrailingPolicy) : Inv (State.start bs ep tp) :=
  inv_of_running rfl (Memory.wf_ofBytes bs) (Nat.zero_le _)

/-- A run that is done has the invariant at the last word's end. -/
theorem inv_of_done {s : State} (hs : s.status = .done) (hwf : s.mem.wf = true) (hk : s.k = s.mem.wordCount) : Inv s where
  canonical := hwf
  position := hk.le
  done _ := hk
  aborted v h := by simp [hs] at h
  rejected b h := by simp [hs] at h

variable {s : State}

theorem inv_takeUnknownOpcode {w : Word} {v : Opcode} (hinv : Inv s) (hs : s.status = .running) (hk : s.k < s.mem.wordCount)
    (hw : s.mem.wordAt s.k = .ok w) (hc : coreResult w = .unknownOpcode v) : Inv (takeUnknownOpcode v s) := by
  cases hp : s.errorPolicy with
  | skip =>
    rw [takeUnknownOpcode_skip v hp]
    exact inv_of_running hs hinv.canonical hk
  | abort =>
    rw [takeUnknownOpcode_abort v hp]
    exact {
      canonical := hinv.canonical
      position := hinv.position
      done := Status.noConfusion
      aborted := by
        rintro v' ⟨⟩
        exact ⟨hp, hk, w, hw, hc⟩
      rejected := fun _ => Status.noConfusion }

theorem inv_takeTrailingByte {b : Byte} (hinv : Inv s) (hk : s.k = s.mem.wordCount) (hodd : s.mem.size % 2 = 1)
    (hb : s.mem.read (s.mem.size - 1) = some b) : Inv (takeTrailingByte b s) := by
  cases hp : s.trailingPolicy with
  | warn =>
    rw [takeTrailingByte_warn b hp]
    exact inv_of_done rfl hinv.canonical hk
  | reject =>
    rw [takeTrailingByte_reject b hp]
    exact {
      canonical := hinv.canonical
      position := hinv.position
      done := Status.noConfusion
      aborted := fun _ => Status.noConfusion
      rejected := by
        rintro b' ⟨⟩
        exact ⟨hp, hk, hodd, hb⟩ }

theorem step_keeps_inv {t : State} (hinv : Inv s) (ht : step s = .next t) : Inv t := by
  obtain ⟨hs, ⟨w, m, dst, src, hk, -, -, rfl⟩ | ⟨w, v, hk, hw, hc, rfl⟩ | ⟨hk, -, rfl⟩ | ⟨b, hk, hodd, hb, rfl⟩⟩ := step_cases ht
  · exact inv_of_running hs hinv.canonical hk
  · exact inv_takeUnknownOpcode hinv hs hk hw hc
  · exact inv_of_done rfl hinv.canonical hk
  · exact inv_takeTrailingByte hinv hk hodd hb

/-- In a sound running state every byte the step reads is there, so it has a next state. -/
theorem exists_step_of_running (hinv : Inv s) (hs : s.status = .running) : ∃ t, step s = .next t := by
  rcases Nat.lt_or_eq_of_le hinv.position with hk | hk
  · obtain ⟨w, hw⟩ := Memory.exists_wordAt_of_wf hinv.canonical hk
    exact ⟨_, by rw [step_of_word hs hk hw, runWord_eq]⟩
  · rcases Nat.mod_two_eq_zero_or_one s.mem.size with heven | hodd
    · exact ⟨_, step_of_even_end hs hk heven⟩
    · have hlast : s.mem.size - 1 < s.mem.size := by omega
      obtain ⟨b, hb⟩ := Option.isSome_iff_exists.mp ((Memory.read_isSome_of_wf hinv.canonical _).mpr hlast)
      exact ⟨_, step_of_odd_end hs hk hodd hb⟩

end Sys2Proof.Safety

/-! Two runs that agree in the word at their position make the same change (70_reset_and_hazards.md section 3). -/

namespace Sys2Proof.Machine

/-- Two states at one position, with the same logs and the same status. -/
def SameProgress (s₁ s₂ : State) : Prop :=
  s₁.k = s₂.k ∧ s₁.lines = s₂.lines ∧ s₁.diags = s₂.diags ∧ s₁.status = s₂.status

variable {s₁ s₂ : State}

theorem SameProgress.emitResult (m : Mnemonic) (dst src : RegId) (h : SameProgress s₁ s₂) :
    SameProgress (emitResult m dst src s₁) (emitResult m dst src s₂) := by
  obtain ⟨hk, hlines, hdiags, hstatus⟩ := h
  simp [SameProgress, emitResult_eq, hk, hlines, hdiags, hstatus]

theorem SameProgress.takeUnknownOpcode (v : Opcode) (h : SameProgress s₁ s₂) (hp : s₁.errorPolicy = s₂.errorPolicy) :
    SameProgress (takeUnknownOpcode v s₁) (takeUnknownOpcode v s₂) := by
  obtain ⟨hk, hlines, hdiags, hstatus⟩ := h
  cases hp₁ : s₁.errorPolicy with
  | skip =>
    rw [takeUnknownOpcode_skip v hp₁, takeUnknownOpcode_skip v (hp.symm.trans hp₁)]
    simp [SameProgress, hk, hlines, hdiags, hstatus]
  | abort =>
    rw [takeUnknownOpcode_abort v hp₁, takeUnknownOpcode_abort v (hp.symm.trans hp₁)]
    simp [SameProgress, hk, hlines, hdiags]

end Sys2Proof.Machine

/-! The obligations of 60_exceptions.md, 10_state.md and 70_reset_and_hazards.md on one step, settled. -/

namespace Sys2Proof.Proofs

open Sys2Proof.Machine Sys2Proof.Safety

/-- Settles O36: each of the four things a step can do keeps the invariant. -/
theorem stepKeepsSoundness : Obligations.StepKeepsSoundness := fun _ _ => step_keeps_inv

/-- Settles O35: the start is running at word 0 of a canonical input, and reset is a start. -/
theorem startIsSound : Obligations.StartIsSound := ⟨inv_start, inv_start [] Config.errorPolicy Config.trailingPolicy⟩

/-- Settles O27: the step is the policy's, once the word's result is known. -/
theorem unknownOpcodeFollowsThePolicy : Obligations.UnknownOpcodeFollowsThePolicy := by
  intro s w v hs hk hw hc
  rw [step_of_word hs hk hw, runWord_of_unknown hc]
  exact ⟨fun hskip => by rw [takeUnknownOpcode_skip v hskip], fun habort => by rw [takeUnknownOpcode_abort v habort]⟩

/-- Settles O29: the step is the trailing policy's, once the last byte is read. -/
theorem oddInputReportsTheTrailingByte : Obligations.OddInputReportsTheTrailingByte := by
  intro s b hs hk hodd hb
  rw [step_of_odd_end hs hk hodd hb]
  exact ⟨fun hwarn => by rw [takeTrailingByte_warn b hwarn], fun hreject => by rw [takeTrailingByte_reject b hreject]⟩

/-- Settles O30: a sound running state lacks no byte, and only a running state has a next one. -/
theorem stepAnswersExactlyWhileRunning : Obligations.StepAnswersExactlyWhileRunning :=
  ⟨fun _ hinv => ⟨fun ⟨_, ht⟩ => (step_cases ht).1, exists_step_of_running hinv⟩, fun _ => step_of_ended⟩

/-- Settles O31: a word is passed with one entry in one log, or the run ends. -/
theorem stepChangesAtMostOneLog : Obligations.StepChangesAtMostOneLog := fun _ _ => step_changes_at_most_one_log

/-- Settles O33: both hosts assemble the same word and take the same result. -/
theorem stepReadsOnlyItsOwnWord : Obligations.StepReadsOnlyItsOwnWord := by
  intro s₁ s₂ hinv₁ _ hs₁ hs₂ hk₁ hk₂ hk hlines hdiags hp hlo hhi
  have hsame : SameProgress s₁ s₂ := ⟨hk, hlines, hdiags, hs₁.trans hs₂.symm⟩
  obtain ⟨w, hw₁⟩ := Memory.exists_wordAt_of_wf hinv₁.canonical hk₁
  have hw₂ : s₂.mem.wordAt s₂.k = .ok w := by rw [← hw₁, Memory.wordAt, Memory.wordAt, hlo, hhi, hk]
  rw [step_of_word hs₁ hk₁ hw₁, step_of_word hs₂ hk₂ hw₂]
  cases hc : coreResult w with
  | ok m dst src => exact ⟨_, _, runWord_of_ok hc s₁, runWord_of_ok hc s₂, hsame.emitResult m dst src⟩
  | unknownOpcode v =>
    exact ⟨_, _, runWord_of_unknown hc s₁, runWord_of_unknown hc s₂, hsame.takeUnknownOpcode v hp⟩

/-- Settles O34: the placed bytes are there, and put together again they are the table's word. -/
theorem placedWordIsTheNextRun : Obligations.PlacedWordIsTheNextRun := fun s _ _ _ hi =>
  ⟨Memory.wf_placeWord s.mem s.k _, step_withFetchWord s (decodeWord_of_decodeTableWord hi)⟩

/-- Settles O25: the two bytes are the word at `k`. -/
theorem stepRunsTheDecodedInstruction : Obligations.StepRunsTheDecodedInstruction := fun _ _ _ _ hs hk hlo hhi hdecode =>
  step_of_decoded_bytes hs hk hlo hhi (decode_cons_cons_ok_iff.mp hdecode).1

/-- Settles O19: `mov` is the effect of its result, with the operands routed. -/
theorem movCompletes : Obligations.MovCompletes := by
  intro mod reg r_m d w s
  rw [exec_mov, emitResult_eq, render_mov, route_eq_ite_one]

/-- Settles O20: the one next state is the effect of the result, which appends a line and moves `k`. -/
theorem movFrame : Obligations.MovFrame := by
  intro mod reg r_m d w s t h
  rw [exec_mov, emitResult_eq] at h
  cases h
  exact ⟨fun _ => rfl, rfl, rfl, rfl, rfl, rfl, rfl, _, rfl⟩

/-- Settles O24: the fields of the start, and reset as one. -/
theorem startOfRun : Obligations.StartOfRun :=
  ⟨fun bs _ _ => ⟨rfl, rfl, rfl, rfl, Memory.read_ofBytes bs⟩, rfl⟩

end Sys2Proof.Proofs

/-! Runs of several steps: a step put in front, and the one induction by which what every step keeps holds along a run. -/

namespace Sys2Proof.Machine

open Sys2Proof.Safety

theorem run_succ_of_step {M : Host.Core} {s u : M.State} (h : M.step s = .next u) (n : Nat) :
    M.run (n + 1) s = M.run n u := by
  rw [Host.Core.run, h]

/-- What a step from a state with `P` keeps holds at the end of every run from such a state. -/
theorem run_keeps {M : Host.Core} {P : M.State → Prop} (hstep : ∀ s u, P s → M.step s = .next u → P u) {n : Nat}
    {s t : M.State} (hs : P s) (h : M.run n s = .next t) : P t := by
  induction n generalizing s with
  | zero =>
    cases h
    exact hs
  | succ n ih =>
    cases hu : M.step s with
    | next u => exact ih (hstep s u hs hu) ((run_succ_of_step hu n).symm.trans h)
    | fault r =>
      rw [Host.Core.run, hu] at h
      cases h
    | refused r =>
      rw [Host.Core.run, hu] at h
      cases h

theorem run_keeps_parameters {n : Nat} {s t : State} (h : core.run n s = .next t) : SameParameters s t :=
  run_keeps (M := core) (fun _ _ hu huv => hu.trans (step_keeps_parameters huv)) (SameParameters.refl s) h

theorem run_keeps_inv {n : Nat} {s t : State} (hinv : Inv s) (h : core.run n s = .next t) : Inv t :=
  run_keeps (M := core) (fun _ _ => step_keeps_inv) hinv h

/-- Every step passes a word or ends the run, so the words left and one step more are enough. -/
theorem exists_run_ended {s : State} (hinv : Inv s) (hs : s.status = .running) :
    ∃ n, n ≤ s.mem.wordCount - s.k + 1 ∧ ∃ t, core.run n s = .next t ∧ Ended t := by
  induction hleft : s.mem.wordCount - s.k generalizing s with
  | zero =>
    obtain ⟨u, hu⟩ := exists_step_of_running hinv hs
    have hk := hinv.position
    refine ⟨1, le_rfl, u, run_succ_of_step (M := core) hu 0, ?_⟩
    rcases step_progress hu with ⟨hk', -⟩ | ⟨-, hended⟩
    · have hpos := (step_keeps_inv hinv hu).position
      rw [step_keeps_mem hu] at hpos
      omega
    · exact hended
  | succ left ih =>
    obtain ⟨u, hu⟩ := exists_step_of_running hinv hs
    rcases step_progress hu with ⟨hk', hrunning⟩ | ⟨-, hended⟩
    · have hleft' : u.mem.wordCount - u.k = left := by
        rw [step_keeps_mem hu]
        omega
      obtain ⟨n, hn, t, ht, hended⟩ := ih (step_keeps_inv hinv hu) hrunning hleft'
      exact ⟨n + 1, Nat.succ_le_succ hn, t, (run_succ_of_step (M := core) hu n).trans ht, hended⟩
    · exact ⟨1, Nat.succ_le_succ (Nat.zero_le _), u, run_succ_of_step (M := core) hu 0, hended⟩

end Sys2Proof.Machine

/-! The report, one equation a kind of word (60_exceptions.md R143, R144), and its lines. -/

namespace Sys2Proof.Safety

open Sys2Proof.Machine

/-- An observation with earlier entries in front of both logs. -/
def Observation.after (o : Observation) (lines : List Text) (diags : List Diag) : Observation :=
  { o with lines := lines ++ o.lines, diags := diags ++ o.diags }

variable {tp : TrailingPolicy} {tail : Option Byte} {k : Nat} {w : Word} {ws : List Word} {v : Opcode}

theorem report_ok {ep : ErrorPolicy} {m : Mnemonic} {dst src : RegId} (hc : coreResult w = .ok m dst src) :
    report ep tp tail k (w :: ws) = (report ep tp tail (k + 1) ws).after [render m dst src] [] := by
  simp [report, hc, Observation.after]

theorem report_skip (hc : coreResult w = .unknownOpcode v) :
    report .skip tp tail k (w :: ws) = (report .skip tp tail (k + 1) ws).after [] [.warn (.unknownOpcode v k)] := by
  simp [report, hc, Observation.after]

theorem report_abort (hc : coreResult w = .unknownOpcode v) :
    report .abort tp tail k (w :: ws) = { lines := [], diags := [.error (.unknownOpcode v k)], status := .aborted v } := by
  simp [report, hc]

theorem endReport_lines (tp : TrailingPolicy) (tail : Option Byte) : (endReport tp tail).lines = [] := by
  cases tail with
  | none => rfl
  | some b => cases tp <;> rfl

theorem report_skip_lines (tp : TrailingPolicy) (tail : Option Byte) (k : Nat) (ws : List Word) :
    (report .skip tp tail k ws).lines = ws.filterMap lineOf := by
  induction ws generalizing k with
  | nil => exact endReport_lines tp tail
  | cons w ws ih =>
    cases hc : coreResult w with
    | ok m dst src => simp [report_ok hc, Observation.after, ih, lineOf_of_ok hc]
    | unknownOpcode v => simp [report_skip hc, Observation.after, ih, lineOf_of_unknown hc]

theorem report_abort_lines (tp : TrailingPolicy) (tail : Option Byte) (k : Nat) (ws : List Word) :
    (report .abort tp tail k ws).lines = (ws.takeWhile fun w => (lineOf w).isSome).filterMap lineOf := by
  induction ws generalizing k with
  | nil => exact endReport_lines tp tail
  | cons w ws ih =>
    cases hc : coreResult w with
    | ok m dst src => simp [report_ok hc, Observation.after, ih, lineOf_of_ok hc]
    | unknownOpcode v => simp [report_abort hc, lineOf_of_unknown hc]

end Sys2Proof.Safety

/-! What a run will have shown at its end, told from any state on its way: no step changes it (60_exceptions.md R143 to R146). -/

namespace Sys2Proof.Safety

open Sys2Proof.Machine

/-- The bytes of a state's input. -/
def bytesOf (s : State) : List Byte := s.mem.map Prod.snd

/-- The words from `k` on. -/
def wordsFrom (s : State) : List Word := (wordsOf (bytesOf s)).drop s.k

/-- What is shown already, and, while the run is under way, the report of the words left after it. -/
def outcome (s : State) : Observation :=
  match s.status with
  | .running =>
    (report s.errorPolicy s.trailingPolicy (trailingOf (bytesOf s)) s.k (wordsFrom s)).after s.lines s.diags
  | .done | .aborted _ | .rejected _ => observe s

theorem outcome_of_running {s : State} (hs : s.status = .running) :
    outcome s =
      (report s.errorPolicy s.trailingPolicy (trailingOf (bytesOf s)) s.k (wordsFrom s)).after s.lines s.diags := by
  rw [outcome, hs]

theorem outcome_of_ended {s : State} (hs : Ended s) : outcome s = observe s := by
  cases hst : s.status with
  | running => exact absurd hst hs
  | done => rw [outcome, hst]
  | aborted v => rw [outcome, hst]
  | rejected b => rw [outcome, hst]

theorem bytesOf_start (bs : List Byte) (ep : ErrorPolicy) (tp : TrailingPolicy) : bytesOf (State.start bs ep tp) = bs := by
  simp [bytesOf, Memory.ofBytes, List.map_snd_zip]

theorem outcome_start (bs : List Byte) (ep : ErrorPolicy) (tp : TrailingPolicy) :
    outcome (State.start bs ep tp) = fileReport bs ep tp := by
  rw [outcome_of_running rfl, wordsFrom, bytesOf_start]
  rfl

variable {s t : State}

theorem length_bytesOf (s : State) : (bytesOf s).length = s.mem.size := List.length_map _

theorem bytesOf_getElem? (hwf : s.mem.wf = true) (a : Nat) : (bytesOf s)[a]? = s.mem.read a := by
  conv_rhs => rw [Memory.eq_ofBytes_of_wf hwf, Memory.read_ofBytes]
  rfl

theorem wordsFrom_of_word {w : Word} (hwf : s.mem.wf = true) (hw : s.mem.wordAt s.k = .ok w) :
    wordsFrom s = w :: (wordsOf (bytesOf s)).drop (s.k + 1) := by
  rw [wordsFrom, List.drop_eq_getElem?_toList_append, bytesOf, getElem?_wordsOf_of_wordAt hwf hw]
  rfl

theorem wordsFrom_of_end (hk : s.k = s.mem.wordCount) : wordsFrom s = [] := by
  rw [wordsFrom, List.drop_eq_nil_iff, length_wordsOf, length_bytesOf, hk, Memory.wordCount_eq]

theorem trailingOf_bytesOf_even (heven : s.mem.size % 2 = 0) : trailingOf (bytesOf s) = none :=
  trailingOf_of_even (by rw [length_bytesOf, heven])

theorem trailingOf_bytesOf_odd {b : Byte} (hwf : s.mem.wf = true) (hodd : s.mem.size % 2 = 1)
    (hb : s.mem.read (s.mem.size - 1) = some b) : trailingOf (bytesOf s) = some b := by
  rw [trailingOf_of_odd (by rw [length_bytesOf, hodd]), List.getLast?_eq_getElem?, length_bytesOf, bytesOf_getElem? hwf, hb]

theorem outcome_emitResult {w : Word} {m : Mnemonic} {dst src : RegId} (hs : s.status = .running) (hwf : s.mem.wf = true)
    (hw : s.mem.wordAt s.k = .ok w) (hc : coreResult w = .ok m dst src) : outcome (emitResult m dst src s) = outcome s := by
  have hs' : (emitResult m dst src s).status = .running := hs
  rw [outcome_of_running hs', outcome_of_running hs, wordsFrom_of_word hwf hw, report_ok hc, emitResult_eq]
  simp [Observation.after, wordsFrom, bytesOf]

theorem outcome_takeUnknownOpcode {w : Word} {v : Opcode} (hs : s.status = .running) (hwf : s.mem.wf = true)
    (hw : s.mem.wordAt s.k = .ok w) (hc : coreResult w = .unknownOpcode v) :
    outcome (takeUnknownOpcode v s) = outcome s := by
  rw [outcome_of_running hs, wordsFrom_of_word hwf hw]
  cases hp : s.errorPolicy with
  | skip =>
    have hs' : (takeUnknownOpcode v s).status = .running := by rw [takeUnknownOpcode_skip v hp, hs]
    rw [outcome_of_running hs', report_skip hc, takeUnknownOpcode_skip v hp]
    simp [Observation.after, wordsFrom, bytesOf, hp]
  | abort =>
    rw [report_abort hc, takeUnknownOpcode_abort v hp, outcome_of_ended Status.noConfusion]
    simp [Observation.after, observe]

theorem outcome_done (hs : s.status = .running) (hk : s.k = s.mem.wordCount) (heven : s.mem.size % 2 = 0) :
    outcome (s.setStatus .done) = outcome s := by
  rw [outcome_of_running hs, wordsFrom_of_end hk, trailingOf_bytesOf_even heven, outcome_of_ended Status.noConfusion]
  simp [report, endReport, Observation.after, observe]

theorem outcome_takeTrailingByte {b : Byte} (hs : s.status = .running) (hwf : s.mem.wf = true) (hk : s.k = s.mem.wordCount)
    (hodd : s.mem.size % 2 = 1) (hb : s.mem.read (s.mem.size - 1) = some b) :
    outcome (takeTrailingByte b s) = outcome s := by
  rw [outcome_of_running hs, wordsFrom_of_end hk, trailingOf_bytesOf_odd hwf hodd hb]
  cases hp : s.trailingPolicy with
  | warn =>
    rw [takeTrailingByte_warn b hp, outcome_of_ended Status.noConfusion]
    simp [report, endReport, Observation.after, observe]
  | reject =>
    rw [takeTrailingByte_reject b hp, outcome_of_ended Status.noConfusion]
    simp [report, endReport, Observation.after, observe]

theorem step_keeps_outcome (hinv : Inv s) (ht : step s = .next t) : outcome t = outcome s := by
  have hwf := hinv.canonical
  obtain ⟨hs, ⟨w, m, dst, src, -, hw, hc, rfl⟩ | ⟨w, v, -, hw, hc, rfl⟩ | ⟨hk, heven, rfl⟩ | ⟨b, hk, hodd, hb, rfl⟩⟩ :=
    step_cases ht
  · exact outcome_emitResult hs hwf hw hc
  · exact outcome_takeUnknownOpcode hs hwf hw hc
  · exact outcome_done hs hk heven
  · exact outcome_takeTrailingByte hs hwf hk hodd hb

theorem run_keeps_outcome {n : Nat} (hinv : Inv s) (h : core.run n s = .next t) : outcome t = outcome s := by
  have hkept : Inv t ∧ outcome t = outcome s := by
    refine run_keeps (M := core) (P := fun u => Inv u ∧ outcome u = outcome s) ?_ ⟨hinv, rfl⟩ h
    rintro u v ⟨hu, hout⟩ huv
    exact ⟨step_keeps_inv hu huv, (step_keeps_outcome hu huv).trans hout⟩
  exact hkept.2

/-- Under `skip` a sound run ends only after its last word. -/
theorem position_of_ended_skip (hinv : Inv s) (hended : Ended s) (hp : s.errorPolicy = .skip) : s.k = s.mem.wordCount := by
  cases hs : s.status with
  | running => exact absurd hs hended
  | done => exact hinv.done hs
  | aborted v =>
    obtain ⟨habort, -⟩ := hinv.aborted v hs
    rw [hp] at habort
    cases habort
  | rejected b =>
    obtain ⟨-, hk, -⟩ := hinv.rejected b hs
    exact hk

/-- The run of every input ends, and then it shows the report of the input. -/
theorem exists_run_shows_report (bs : List Byte) (ep : ErrorPolicy) (tp : TrailingPolicy) :
    ∃ n, n ≤ bs.length / 2 + 1 ∧ ∃ t, core.run n (State.start bs ep tp) = .next t ∧ Ended t ∧
      observe t = fileReport bs ep tp := by
  have hinv := inv_start bs ep tp
  obtain ⟨n, hn, t, ht, hended⟩ := exists_run_ended hinv rfl
  refine ⟨n, by simpa using hn, t, ht, hended, ?_⟩
  rw [← outcome_of_ended hended, run_keeps_outcome hinv ht, outcome_start]

end Sys2Proof.Safety

/-! The obligations of 60_exceptions.md and 20_memory.md on whole runs, settled. -/

namespace Sys2Proof.Proofs

open Sys2Proof.Machine Sys2Proof.Safety

/-- Settles O32: no step writes a parameter of the run, so no run does. -/
theorem runNeverWritesItsInput : Obligations.RunNeverWritesItsInput := by
  intro n s t h
  obtain ⟨hmem, hep, htp⟩ := run_keeps_parameters h
  exact ⟨hmem, fun a => by rw [hmem], hep, htp⟩

/-- Settles O38: by induction on the words left. -/
theorem everyRunEnds : Obligations.EveryRunEnds := fun _ => exists_run_ended

/-- Settles O39: the outcome told at the start is the report, and no step changes it. -/
theorem runShowsTheReport : Obligations.RunShowsTheReport := by
  intro bs ep tp
  obtain ⟨n, hn, t, ht, hended, hshows⟩ := exists_run_shows_report bs ep tp
  exact ⟨n, hn, t, ht, hended, by rw [hshows]⟩

/-- Settles O40: the lines are the report's, and under `skip` only the end of the input ends the run. -/
theorem linesAreTheWordsDecodedApart : Obligations.LinesAreTheWordsDecodedApart := by
  refine fun bs tp => ⟨?skip, ?abort⟩
  case skip =>
    obtain ⟨n, -, t, ht, hended, hshows⟩ := exists_run_shows_report bs .skip tp
    obtain ⟨hmem, hp, -⟩ := run_keeps_parameters ht
    have hk := position_of_ended_skip (run_keeps_inv (inv_start bs .skip tp) ht) hended hp
    rw [hmem, State.start_mem, Memory.wordCount_ofBytes] at hk
    exact ⟨n, t, ht, hended, hk, (congrArg Observation.lines hshows).trans (report_skip_lines tp _ 0 _)⟩
  case abort =>
    obtain ⟨n, -, t, ht, hended, hshows⟩ := exists_run_shows_report bs .abort tp
    exact ⟨n, t, ht, hended, (congrArg Observation.lines hshows).trans (report_abort_lines tp _ 0 _)⟩

end Sys2Proof.Proofs
